-- ==== Sys2Proof/Word.lean ====
section
/-! DEFINITION. The word types of the WAH/BBC codec core and their plainest vocabulary.

`spec/00_scope.md` rule R7 fixes the bit sequence, rule R9 the unsigned numbers,
`spec/30_encoding.md` rules R60 and R65 the widths of the command and response words. -/

namespace Sys2Proof

/-- A bit sequence (rule R7): an ordered list of bits, position 0 first. -/
abbrev Bits := List Bool

/-- One byte of `RAW`, or the value of a BBC byte. -/
abbrev Byte := BitVec 8

/-- An `XLEN`-bit operand, result or offset (rule R6: 64 bits, unsigned). -/
abbrev Operand := BitVec 64

/-- The 136-bit command word (rule R60). -/
abbrev CmdWord := BitVec 136

/-- The 131-bit response word (rule R65). -/
abbrev RspWord := BitVec 131

/-- The name of one of the four bit-sequence buffers `B0`..`B3` (rules R21, R61). -/
inductive BufId where
  | b0
  | b1
  | b2
  | b3
  deriving DecidableEq, Repr

end Sys2Proof
end

