-- ==== Sys2Proof/Machine/Bits.lean ====
section
/-! DEFINITION. Bit sequences, numbers and bytes: the pseudocode primitives of
`spec/00_scope.md` rules R7 to R10, the byte form of `spec/20_memory.md` rules R41 to R43 and the
partition into zero-padded units that the byte form and both codecs share. -/

namespace Sys2Proof

/-- `rep(v, k)` (rule R7). -/
def rep (v : Bool) (k : Nat) : Bits := List.replicate k v

/-- `q[a..b)` (rule R7). -/
def slice (q : Bits) (a b : Nat) : Bits := (q.drop a).take (b - a)

/-- `ceil_div(a, b)` (rule R9). -/
def ceilDiv (a b : Nat) : Nat := (a + b - 1) / b

/-- `val(q)` (rule R8): the value of `q` read highest-order bit first. -/
def val : Bits → Nat
  | [] => 0
  | b :: q => b.toNat * 2 ^ q.length + val q

/-- `bits_N(v)` (rule R8): the `N` low binary digits of `v`, the highest of them first. -/
def bitsN : Nat → Nat → Bits
  | 0, _ => []
  | n + 1, v => v.testBit n :: bitsN n v

/-- A unit of `u` bits: `q`, zero-padded at its end if short (rules R42, R112, R141). -/
def padUnit (u : Nat) (q : Bits) : Bits := q ++ rep false (u - q.length)

/-- The first `k` units of `u` bits of `q`, short ones zero-padded. -/
def unitsOf (u : Nat) : Nat → Bits → List Bits
  | 0, _ => []
  | k + 1, q => padUnit u (q.take u) :: unitsOf u k (q.drop u)

/-- The partition of `q` into `ceil_div(len(q), u)` units of `u` bits, the last zero-padded
(rule R112 with `u = W - 1`, rules R42 and R141 with `u = 8`). -/
def partition (u : Nat) (q : Bits) : List Bits := unitsOf u (ceilDiv q.length u) q

/-- The byte whose bits are `q`, first bit highest (rule R41). -/
def byteOf (q : Bits) : Byte := BitVec.ofNat 8 (val q)

/-- The bits of a byte in sequence order (rule R41). -/
def bitsOfByte (y : Byte) : Bits := bitsN 8 y.toNat

/-- `pack(q)` (rule R42): the byte form of `q`, the unused digits of the last byte 0. -/
def pack (q : Bits) : List Byte := (partition 8 q).map byteOf

/-- `unpack(bytes, n)` (rule R43): the first `n` bits the bytes hold; what the last byte holds
beyond them is not looked at. -/
def unpack (bytes : List Byte) (n : Nat) : Bits := (bytes.flatMap bitsOfByte).take n

end Sys2Proof
end

