-- ==== Sys2Proof/Config.lean ====
section
/-! DEFINITION. The implementation parameters of `spec/00_scope.md` rule R6.

`NBUF = 4` is the type `BufId`; the BBC unit of 8 bits and the tag of 3 bits are in the record formats of
`Decode.lean` and in `bitsOfByte`.  No value here is a free value: the spec has no behaviour of the treatment "any value"
(`spec/93_implementation_defined.md`).  The one open parameter, `CAP`, is carried as the field
`cap` of `State`, so that every statement about a state quantifies over it; only the
value reset gives it stands here. -/

namespace Sys2Proof.Config

/-- Width of operands, results and offsets (rule R6, `XLEN`). -/
def xlen : Nat := 64

/-- Least WAH word size (rule R110). -/
def minWordSize : Nat := 2

/-- Greatest WAH word size (rule R110). -/
def maxWordSize : Nat := 64

/-- Width of the BBC run-length field (rule R140, `L`). -/
def runWidth : Nat := 8

/-- The longest run one BBC record can hold (rule R140, `RM = 2^L - 1`). -/
def runMax : Nat := 2 ^ runWidth - 1

/-- Bound of the open parameter `CAP` (rule R6): `1 <= CAP <= 2^64 - 1`. -/
def capBound : Nat := 2 ^ xlen

/-- The capacity the reset state of `core` has.
DESIGN CHOICE, unsafe (notes/assumptions/1.md): `CAP` is open (rule R6); 4096 is the value
`spec/95_test_vectors.md` states its vectors for. -/
def cap : Nat := 4096

end Sys2Proof.Config
end

