-- ==== Sys2Proof/Syntax.lean ====
section
/-! DEFINITION. The instructions: one constructor per row of `spec/opcode_table.json`.

The first sixteen rows are the command words of `spec/30_encoding.md` rule R62 (fifteen commands and
the reserved code); the last ten are the units of the two compressed streams, which the decoders read
and act on (rules R68, R69, R73, R76).  Register numbers are already names; operands are the whole
64-bit fields (rule R63). -/

namespace Sys2Proof

/-- A command of the host, or a unit of a compressed stream. -/
inductive Instr where
  /-- `BS_CLEAR Bd` (rule R91). -/
  | bsClear (d : BufId)
  /-- `BS_LEN Bs` (rule R92). -/
  | bsLen (s : BufId)
  /-- `BS_GET Bs, i` (rule R93). -/
  | bsGet (s : BufId) (i : Operand)
  /-- `BS_APPEND Bd, bit` (rule R94). -/
  | bsAppend (d : BufId) (bit : Operand)
  /-- `BS_SLICE Bd, Bs, start, end` (rule R95). -/
  | bsSlice (d s : BufId) (start stop : Operand)
  /-- `BS_FROM_BYTES Bd, n` (rule R96). -/
  | bsFromBytes (d : BufId) (n : Operand)
  /-- `BS_TO_BYTES Bs` (rule R97). -/
  | bsToBytes (s : BufId)
  /-- The reserved code `op = 7`, with whatever its other fields hold (rule R174). -/
  | reservedOp7 (d s : BufId) (a0 a1 : Operand)
  /-- `WAH_COMPRESS Bd, Bs, W` (rule R115). -/
  | wahCompress (d s : BufId) (w : Operand)
  /-- `WAH_DECOMPRESS Bd, Bs, W, final_bits` (rule R117). -/
  | wahDecompress (d s : BufId) (w finalBits : Operand)
  /-- `BBC_COMPRESS Bd, Bs` (rule R144). -/
  | bbcCompress (d s : BufId)
  /-- `BBC_DECOMPRESS Bd, Bs, orig_bits` (rule R147). -/
  | bbcDecompress (d s : BufId) (origBits : Operand)
  /-- `RAW_WR addr, byte` (rule R170). -/
  | rawWr (addr byte : Operand)
  /-- `RAW_RD addr` (rule R171). -/
  | rawRd (addr : Operand)
  /-- `RD_ERRS` (rule R172). -/
  | rdErrs
  /-- `CLR_ERRS` (rule R173). -/
  | clrErrs
  /-- A WAH literal word (rule R68): its word size is one more than the length of its payload. -/
  | wahLiteral (payload : Bits)
  /-- A WAH fill word of word size `w` (rule R69): fill value `v`, run counter `count`. -/
  | wahFill (w : Nat) (v : Bool) (count : Nat)
  /-- A BBC zero-run record (rule R73), `n` bytes `0x00`. -/
  | bbcZeroRun (n : BitVec 8)
  /-- A BBC one-run record (rule R73), `n` bytes `0xFF`. -/
  | bbcOneRun (n : BitVec 8)
  /-- A BBC single-set-bit record (rules R73, R74). -/
  | bbcSingleSet (i : BitVec 3)
  /-- A BBC single-clear-bit record (rules R73, R74). -/
  | bbcSingleClear (i : BitVec 3)
  /-- A BBC literal record (rules R73, R74). -/
  | bbcLiteral (b : Byte)
  /-- The reserved BBC tag `101` (rule R76); nothing after the tag is read. -/
  | bbcReserved101
  /-- The reserved BBC tag `110` (rule R76). -/
  | bbcReserved110
  /-- The reserved BBC tag `111` (rule R76). -/
  | bbcReserved111
  deriving DecidableEq, Repr

end Sys2Proof
end

