-- ==== Sys2Proof/WellFormed.lean ====
section
/-! DEFINITION. Well-formed instructions: those some encoding of `spec/30_encoding.md` stands for.

Every command operand is a whole field, so every command is well-formed (rule R61: "every value `0..3`
of a used `d` or `s` is legal").  A WAH word is well-formed when a word of some size `2..64` holds it
(rules R67, R68, R69); a BBC record always is.  Whether an operand is in a command's domain, and
whether a counter or a run length of 0 is legal, is not a matter of form: the instruction's own rule
raises the error. -/

namespace Sys2Proof

/-- A legal WAH word size (rule R110). -/
def wordSizeOk (w : Nat) : Bool := Config.minWordSize ≤ w && w ≤ Config.maxWordSize

/-- The instruction has an encoding. -/
def Instr.wellFormed : Instr → Bool
  | .wahLiteral payload => wordSizeOk (payload.length + 1)
  | .wahFill w _ count => wordSizeOk w && count < 2 ^ (w - 2)
  | .bsClear _ | .bsLen _ | .bsGet _ _ | .bsAppend _ _ | .bsSlice _ _ _ _ | .bsFromBytes _ _
  | .bsToBytes _ | .reservedOp7 _ _ _ _ | .wahCompress _ _ _ | .wahDecompress _ _ _ _
  | .bbcCompress _ _ | .bbcDecompress _ _ _ | .rawWr _ _ | .rawRd _ | .rdErrs | .clrErrs
  | .bbcZeroRun _ | .bbcOneRun _ | .bbcSingleSet _ | .bbcSingleClear _ | .bbcLiteral _
  | .bbcReserved101 | .bbcReserved110 | .bbcReserved111 => true

end Sys2Proof
end

