-- ==== Sys2Proof/Decode.lean ====
section
/-! DEFINITION. The encodings of `spec/30_encoding.md`: the decoder, and after it the encoder.

The command word (rules R60 to R64), the WAH word (rules R67 to R71) and the BBC record
(rules R72 to R76).  Decoding is total; what is not an instruction is rejected by name. -/

namespace Sys2Proof

/-! ## What a decoder answers -/

/-- Why bits are no instruction. -/
inductive Reject where
  /-- A field the command does not use is non-zero (rule R64 (b)). -/
  | unusedField (mnemonic : String)
  /-- Fewer than `W` bits are left for a WAH word (rule R71). -/
  | truncatedWord
  /-- `W` is no word size: a word has a marker and at least one payload bit (rule R110). -/
  | noWordSize
  /-- One or two bits are left where a BBC tag should start (rule R76). -/
  | truncatedTag
  /-- The field of a BBC record runs past the end (rule R76). -/
  | truncatedField
  deriving DecidableEq, Repr

/-- The result of decoding: an instruction or a rejection. -/
inductive Decoded where
  | instr (i : Instr)
  | reject (r : Reject)
  deriving DecidableEq, Repr

/-! ## The command word -/

/-- The buffer a 2-bit field selects (rule R61). -/
def BufId.ofField (f : BitVec 2) : BufId :=
  match f.toNat with
  | 0 => .b0
  | 1 => .b1
  | 2 => .b2
  | _ => .b3

/-- The 2-bit field that selects a buffer (rule R61). -/
def BufId.field : BufId → BitVec 2
  | .b0 => 0
  | .b1 => 1
  | .b2 => 2
  | .b3 => 3

/-- The five fields of a command word (rule R60). -/
structure CmdFields where
  op : BitVec 4
  d : BitVec 2
  s : BitVec 2
  a0 : Operand
  a1 : Operand
  deriving DecidableEq, Repr

/-- Rule R61: `op = [3:0]`, `d = [5:4]`, `s = [7:6]`, `a0 = [71:8]`, `a1 = [135:72]`. -/
def fieldsOf (w : CmdWord) : CmdFields where
  op := w.extractLsb' 0 4
  d := w.extractLsb' 4 2
  s := w.extractLsb' 6 2
  a0 := w.extractLsb' 8 64
  a1 := w.extractLsb' 72 64

/-- Rule R60: `cmdword = op + d*2^4 + s*2^6 + a0*2^8 + a1*2^72`. -/
def wordOf (f : CmdFields) : CmdWord :=
  BitVec.ofNat 136
    (f.op.toNat + f.d.toNat * 2 ^ 4 + f.s.toNat * 2 ^ 6 + f.a0.toNat * 2 ^ 8 + f.a1.toNat * 2 ^ 72)

/-- Rule R64 (b): the instruction, if the fields it does not use are all zero. -/
def ifUnusedZero (unusedZero : Bool) (mnemonic : String) (i : Instr) : Decoded :=
  if unusedZero then .instr i else .reject (.unusedField mnemonic)

/-- Rule R62: the command the fields of a word stand for. -/
def decodeFields (f : CmdFields) : Decoded :=
  let d := BufId.ofField f.d
  let s := BufId.ofField f.s
  match f.op.toNat with
  | 0 => ifUnusedZero (f.s == 0 && f.a0 == 0 && f.a1 == 0) "BS_CLEAR" (.bsClear d)
  | 1 => ifUnusedZero (f.d == 0 && f.a0 == 0 && f.a1 == 0) "BS_LEN" (.bsLen s)
  | 2 => ifUnusedZero (f.d == 0 && f.a1 == 0) "BS_GET" (.bsGet s f.a0)
  | 3 => ifUnusedZero (f.s == 0 && f.a1 == 0) "BS_APPEND" (.bsAppend d f.a0)
  | 4 => ifUnusedZero true "BS_SLICE" (.bsSlice d s f.a0 f.a1)
  | 5 => ifUnusedZero (f.s == 0 && f.a1 == 0) "BS_FROM_BYTES" (.bsFromBytes d f.a0)
  | 6 => ifUnusedZero (f.d == 0 && f.a0 == 0 && f.a1 == 0) "BS_TO_BYTES" (.bsToBytes s)
  | 7 => ifUnusedZero true "RESERVED_OP7" (.reservedOp7 d s f.a0 f.a1)
  | 8 => ifUnusedZero (f.a1 == 0) "WAH_COMPRESS" (.wahCompress d s f.a0)
  | 9 => ifUnusedZero true "WAH_DECOMPRESS" (.wahDecompress d s f.a0 f.a1)
  | 10 => ifUnusedZero (f.a0 == 0 && f.a1 == 0) "BBC_COMPRESS" (.bbcCompress d s)
  | 11 => ifUnusedZero (f.a1 == 0) "BBC_DECOMPRESS" (.bbcDecompress d s f.a0)
  | 12 => ifUnusedZero (f.d == 0 && f.s == 0) "RAW_WR" (.rawWr f.a0 f.a1)
  | 13 => ifUnusedZero (f.d == 0 && f.s == 0 && f.a1 == 0) "RAW_RD" (.rawRd f.a0)
  | 14 => ifUnusedZero (f.d == 0 && f.s == 0 && f.a0 == 0 && f.a1 == 0) "RD_ERRS" .rdErrs
  | _ => ifUnusedZero (f.d == 0 && f.s == 0 && f.a0 == 0 && f.a1 == 0) "CLR_ERRS" .clrErrs

/-- The command a command word stands for (rules R61 to R64). -/
def decodeCommand (w : CmdWord) : Decoded := decodeFields (fieldsOf w)

/-! ## The WAH word -/

/-- A word of a WAH stream (rules R68, R69). -/
inductive WahWord where
  | literal (payload : Bits)
  | fill (w : Nat) (v : Bool) (count : Nat)
  deriving DecidableEq, Repr

/-- A WAH word as an instruction. -/
def WahWord.toInstr : WahWord → Instr
  | .literal payload => .wahLiteral payload
  | .fill w v count => .wahFill w v count

/-- What reading a unit of a stream answers. -/
inductive UnitRead (α : Type) where
  | unit (u : α)
  | reject (r : Reject)
  deriving DecidableEq, Repr

/-- The word of size `w` at the start of what is left of a stream (rules R67 to R71).  The counter of
a fill word is read highest-order bit first (rule R70); at `w = 2` it has no bits and is 0 (R71). -/
def readWahWord (w : Nat) (rest : Bits) : UnitRead WahWord :=
  if rest.length < w then .reject .truncatedWord
  else
    match rest.take w with
    | false :: p :: ps => .unit (.literal (p :: ps))
    | true :: v :: counter => .unit (.fill w v (val counter))
    | _ => .reject .noWordSize

/-! ## The BBC record -/

/-- A record of a BBC stream, the reserved tags among them (rules R73, R76). -/
inductive BbcRecord where
  | zeroRun (n : BitVec 8)
  | oneRun (n : BitVec 8)
  | singleSet (i : BitVec 3)
  | singleClear (i : BitVec 3)
  | literal (b : Byte)
  | reserved101
  | reserved110
  | reserved111
  deriving DecidableEq, Repr

/-- A BBC record as an instruction. -/
def BbcRecord.toInstr : BbcRecord → Instr
  | .zeroRun n => .bbcZeroRun n
  | .oneRun n => .bbcOneRun n
  | .singleSet i => .bbcSingleSet i
  | .singleClear i => .bbcSingleClear i
  | .literal b => .bbcLiteral b
  | .reserved101 => .bbcReserved101
  | .reserved110 => .bbcReserved110
  | .reserved111 => .bbcReserved111

/-- The field of `n` bits that follows the tag (rule R74). -/
def bbcField (n : Nat) (rest : Bits) : BitVec n := BitVec.ofNat n (val (slice rest 3 (3 + n)))

/-- The record whose tag and field are `n + 3` bits, if that many are left (rule R76). -/
def ifFieldFits (n : Nat) (rest : Bits) (r : BbcRecord) : UnitRead BbcRecord :=
  if rest.length < 3 + n then .reject .truncatedField else .unit r

/-- The record at the start of what is left of a stream (rules R72 to R76).  The tag alone gives the
length (rule R75); after a reserved tag nothing is read. -/
def readBbcRecord (rest : Bits) : UnitRead BbcRecord :=
  if rest.length < 3 then .reject .truncatedTag
  else
    match val (rest.take 3) with
    | 0 => ifFieldFits 8 rest (.zeroRun (bbcField 8 rest))
    | 1 => ifFieldFits 8 rest (.oneRun (bbcField 8 rest))
    | 2 => ifFieldFits 3 rest (.singleSet (bbcField 3 rest))
    | 3 => ifFieldFits 3 rest (.singleClear (bbcField 3 rest))
    | 4 => ifFieldFits 8 rest (.literal (bbcField 8 rest))
    | 5 => .unit .reserved101
    | 6 => .unit .reserved110
    | _ => .unit .reserved111

/-! ## The three formats together -/

/-- An encoding in the form its reader meets it: a command word, or a unit at the head of a stream. -/
inductive Encoded where
  | command (w : CmdWord)
  | wahWord (w : Nat) (bits : Bits)
  | bbcRecord (bits : Bits)
  deriving DecidableEq, Repr

/-- The instruction an encoding stands for, in any format. -/
def decode : Encoded → Decoded
  | .command w => decodeCommand w
  | .wahWord w bits =>
    match readWahWord w bits with
    | .unit u => .instr u.toInstr
    | .reject r => .reject r
  | .bbcRecord bits =>
    match readBbcRecord bits with
    | .unit u => .instr u.toInstr
    | .reject r => .reject r

/-! ## The encoder -/

/-- The bits of a WAH word (rules R68, R69, R70). -/
def WahWord.bits : WahWord → Bits
  | .literal payload => false :: payload
  | .fill w v count => true :: v :: bitsN (w - 2) count

/-- The bits of a BBC record (rules R73, R74): the tag, then the field. -/
def BbcRecord.bits : BbcRecord → Bits
  | .zeroRun n => bitsN 3 0 ++ bitsN 8 n.toNat
  | .oneRun n => bitsN 3 1 ++ bitsN 8 n.toNat
  | .singleSet i => bitsN 3 2 ++ bitsN 3 i.toNat
  | .singleClear i => bitsN 3 3 ++ bitsN 3 i.toNat
  | .literal b => bitsN 3 4 ++ bitsN 8 b.toNat
  | .reserved101 => bitsN 3 5
  | .reserved110 => bitsN 3 6
  | .reserved111 => bitsN 3 7

/-- The command word with these fields, the operation code first (rules R60, R62). -/
def commandWord (op : BitVec 4) (d s : BitVec 2) (a0 a1 : Operand) : Encoded :=
  .command (wordOf ⟨op, d, s, a0, a1⟩)

/-- The encoding of an instruction: the command word with its unused fields zero (rules R62, R64), or
the bits of the stream unit. -/
def encode : Instr → Encoded
  | .bsClear d => commandWord 0 d.field 0 0 0
  | .bsLen s => commandWord 1 0 s.field 0 0
  | .bsGet s i => commandWord 2 0 s.field i 0
  | .bsAppend d bit => commandWord 3 d.field 0 bit 0
  | .bsSlice d s start stop => commandWord 4 d.field s.field start stop
  | .bsFromBytes d n => commandWord 5 d.field 0 n 0
  | .bsToBytes s => commandWord 6 0 s.field 0 0
  | .reservedOp7 d s a0 a1 => commandWord 7 d.field s.field a0 a1
  | .wahCompress d s w => commandWord 8 d.field s.field w 0
  | .wahDecompress d s w f => commandWord 9 d.field s.field w f
  | .bbcCompress d s => commandWord 10 d.field s.field 0 0
  | .bbcDecompress d s n => commandWord 11 d.field s.field n 0
  | .rawWr addr byte => commandWord 12 0 0 addr byte
  | .rawRd addr => commandWord 13 0 0 addr 0
  | .rdErrs => commandWord 14 0 0 0 0
  | .clrErrs => commandWord 15 0 0 0 0
  | .wahLiteral payload => .wahWord (payload.length + 1) (WahWord.literal payload).bits
  | .wahFill w v count => .wahWord w (WahWord.fill w v count).bits
  | .bbcZeroRun n => .bbcRecord (BbcRecord.zeroRun n).bits
  | .bbcOneRun n => .bbcRecord (BbcRecord.oneRun n).bits
  | .bbcSingleSet i => .bbcRecord (BbcRecord.singleSet i).bits
  | .bbcSingleClear i => .bbcRecord (BbcRecord.singleClear i).bits
  | .bbcLiteral b => .bbcRecord (BbcRecord.literal b).bits
  | .bbcReserved101 => .bbcRecord BbcRecord.reserved101.bits
  | .bbcReserved110 => .bbcRecord BbcRecord.reserved110.bits
  | .bbcReserved111 => .bbcRecord BbcRecord.reserved111.bits

/-! ## The opcode table -/

/-- The row's mnemonic in `spec/opcode_table.json`. -/
def Instr.mnemonic : Instr → String
  | .bsClear _ => "BS_CLEAR"
  | .bsLen _ => "BS_LEN"
  | .bsGet _ _ => "BS_GET"
  | .bsAppend _ _ => "BS_APPEND"
  | .bsSlice _ _ _ _ => "BS_SLICE"
  | .bsFromBytes _ _ => "BS_FROM_BYTES"
  | .bsToBytes _ => "BS_TO_BYTES"
  | .reservedOp7 _ _ _ _ => "RESERVED_OP7"
  | .wahCompress _ _ _ => "WAH_COMPRESS"
  | .wahDecompress _ _ _ _ => "WAH_DECOMPRESS"
  | .bbcCompress _ _ => "BBC_COMPRESS"
  | .bbcDecompress _ _ _ => "BBC_DECOMPRESS"
  | .rawWr _ _ => "RAW_WR"
  | .rawRd _ => "RAW_RD"
  | .rdErrs => "RD_ERRS"
  | .clrErrs => "CLR_ERRS"
  | .wahLiteral _ => "WAH_LITERAL"
  | .wahFill _ _ _ => "WAH_FILL"
  | .bbcZeroRun _ => "BBC_ZERO_RUN"
  | .bbcOneRun _ => "BBC_ONE_RUN"
  | .bbcSingleSet _ => "BBC_SINGLE_SET"
  | .bbcSingleClear _ => "BBC_SINGLE_CLEAR"
  | .bbcLiteral _ => "BBC_LITERAL"
  | .bbcReserved101 => "BBC_RESERVED_TAG_101"
  | .bbcReserved110 => "BBC_RESERVED_TAG_110"
  | .bbcReserved111 => "BBC_RESERVED_TAG_111"

/-- A row of rule R62: a command word `w` is this command exactly when `w AND mask = match`. -/
structure OpcodeRow where
  mnemonic : String
  pattern : CmdWord
  mask : CmdWord
  deriving DecidableEq, Repr

/-- A command word matches a row (rule R62). -/
def OpcodeRow.hit (r : OpcodeRow) (w : CmdWord) : Bool := w &&& r.mask == r.pattern

/-- The table of rule R62, its numbers as the spec writes them, with the reserved row of the opcode
table. -/
def opcodeRows : List OpcodeRow :=
  [⟨"BS_CLEAR", 0x0000000000000000000000000000000000, 0xFFFFFFFFFFFFFFFFFFFFFFFFFFFFFFFFCF⟩,
   ⟨"BS_LEN", 0x0000000000000000000000000000000001, 0xFFFFFFFFFFFFFFFFFFFFFFFFFFFFFFFF3F⟩,
   ⟨"BS_GET", 0x0000000000000000000000000000000002, 0xFFFFFFFFFFFFFFFF00000000000000003F⟩,
   ⟨"BS_APPEND", 0x0000000000000000000000000000000003, 0xFFFFFFFFFFFFFFFF0000000000000000CF⟩,
   ⟨"BS_SLICE", 0x0000000000000000000000000000000004, 0x000000000000000000000000000000000F⟩,
   ⟨"BS_FROM_BYTES", 0x0000000000000000000000000000000005, 0xFFFFFFFFFFFFFFFF0000000000000000CF⟩,
   ⟨"BS_TO_BYTES", 0x0000000000000000000000000000000006, 0xFFFFFFFFFFFFFFFFFFFFFFFFFFFFFFFF3F⟩,
   ⟨"RESERVED_OP7", 0x0000000000000000000000000000000007, 0x000000000000000000000000000000000F⟩] ++
  [⟨"WAH_COMPRESS", 0x0000000000000000000000000000000008, 0xFFFFFFFFFFFFFFFF00000000000000000F⟩,
   ⟨"WAH_DECOMPRESS", 0x0000000000000000000000000000000009, 0x000000000000000000000000000000000F⟩,
   ⟨"BBC_COMPRESS", 0x000000000000000000000000000000000A, 0xFFFFFFFFFFFFFFFFFFFFFFFFFFFFFFFF0F⟩,
   ⟨"BBC_DECOMPRESS", 0x000000000000000000000000000000000B, 0xFFFFFFFFFFFFFFFF00000000000000000F⟩,
   ⟨"RAW_WR", 0x000000000000000000000000000000000C, 0x00000000000000000000000000000000FF⟩,
   ⟨"RAW_RD", 0x000000000000000000000000000000000D, 0xFFFFFFFFFFFFFFFF0000000000000000FF⟩,
   ⟨"RD_ERRS", 0x000000000000000000000000000000000E, 0xFFFFFFFFFFFFFFFFFFFFFFFFFFFFFFFFFF⟩,
   ⟨"CLR_ERRS", 0x000000000000000000000000000000000F, 0xFFFFFFFFFFFFFFFFFFFFFFFFFFFFFFFFFF⟩]

/-! ## The host's numbering of table words -/

/-- The encoding that a word of `nbits` bits, numbered as `spec/opcode_table.json` numbers it, stands
for.  PRESUMED (notes/assumptions/4.md): the table gives WAH words (its instance `W = 8`), BBC records
(11, 6 or 3 bits) and command words no bit that tells them apart, so the shape is taken from `nbits`
and the value; a command word whose upper bits are zero may come as one byte. -/
def tableForm (nbits w : Nat) : Encoded :=
  if nbits ≤ 8 then
    if 5 ≤ w ∧ w ≤ 7 then .bbcRecord (bitsN 3 w)
    else if 16 ≤ w ∧ w ≤ 31 then .bbcRecord (bitsN 6 w)
    else if w = 4 ∨ w = 9 ∨ w = 12 then .command (BitVec.ofNat 136 w)
    else .wahWord 8 (bitsN 8 w)
  else if nbits ≤ 16 ∧ w < 2 ^ 11 then .bbcRecord (bitsN 11 w)
  else .command (BitVec.ofNat 136 w)

/-- The instruction this decoder reads from a table word; none where it refuses. -/
def decodeTableWord (nbits w : Nat) : Option Instr :=
  match decode (tableForm nbits w) with
  | .instr i => some i
  | .reject _ => none

end Sys2Proof
end

