-- ==== Sys2Proof/Machine/State.lean ====
section
/-! DEFINITION. The state of one core, as plain data (`spec/10_state.md` rules R20 to R30), with what a
model of it carries beside the architectural items: the host's command list and its index (rule R25),
the response of the last command (an output, rule R27), the open parameter `CAP` (rule R6) and the
work of a decoder while it reads a stream (rule R28). -/

namespace Sys2Proof.Machine

/-- The four error kinds (`spec/60_exceptions.md` rule R185). -/
inductive ErrorKind where
  | invalidParameter
  | outOfRange
  | malformedStream
  | capacityExceeded
  deriving DecidableEq, Repr

/-- The response of a command, by its fields (`spec/30_encoding.md` rule R65). -/
structure Response where
  status : BitVec 3
  res : Operand
  off : Operand
  deriving DecidableEq, Repr

/-- `count` copies of one decoded unit (a WAH group, or the 8 bits of a BBC byte): what one word or
record of a stream stands for.  Kept unexpanded, since "`out` is a mathematical value here"
(`spec/41_wah.md` rule R116). -/
structure Emit where
  unit : Bits
  count : Nat
  deriving DecidableEq, Repr

/-- How far a decoder is: `pos` and `out` of rules R116 and R145. -/
structure Scan where
  pos : Nat
  out : List Emit
  deriving DecidableEq, Repr

/-- Which decoder reads, with the operands it was given (rules R117, R147). -/
inductive Codec where
  | wah (w : Nat) (finalBits : Nat)
  | bbc (origBits : Nat)
  deriving DecidableEq, Repr

/-- The work of a decompress command while it reads its source: "created at the start of a command and
dead at its end" (rule R28).  `stream` is the source as it was when the command began (rule R51). -/
structure Job where
  codec : Codec
  dst : BufId
  stream : Bits
  scan : Scan
  deriving DecidableEq, Repr

/-- The state of the core. -/
structure State where
  /-- `B[0]` (rule R21). -/
  b0 : Bits
  /-- `B[1]`. -/
  b1 : Bits
  /-- `B[2]`. -/
  b2 : Bits
  /-- `B[3]`. -/
  b3 : Bits
  /-- `RAW` (rule R24): the non-zero bytes, addresses rising. -/
  raw : List Host.Cell
  /-- `ERRS` (rule R26). -/
  errs : BitVec 5
  /-- The index of the next command in `prog` (rule R25). -/
  pc : Nat
  /-- The host's list of command words (rule R25; the model's own field). -/
  prog : List CmdWord
  /-- The response the last command produced (rules R27, R65; the model's own field, an output). -/
  rsp : Option Response
  /-- A decoder at work (rule R28; the model's own field); none between commands. -/
  job : Option Job
  /-- The capacity of a buffer in bits, `CAP` (rule R6): a parameter no command writes. -/
  cap : Nat
  deriving DecidableEq, Repr

/-- Why the model stops.  No command stops it: an error of the spec is a next state (rule R190). -/
inductive Fault where
  /-- Raised by `step` when `pc = length(prog)` and no decoder is at work: "the run ends" (rule R25).
  Safe: there is no command to execute. -/
  | runEnded
  /-- Raised by the meaning of a stream unit when no decoder of its format and word size is reading:
  a compressed stream is "data in a buffer like any other sequence" (rule R40) and nothing acts on its
  units.  No step raises it.  Safe. -/
  | noDecoderReading
  deriving DecidableEq, Repr

/-- Why an instruction has no meaning. -/
inductive Refusal where
  /-- Raised by the arm of an instruction this model gives no meaning yet.  No arm does.  Safe. -/
  | notModelled (mnemonic : String)
  deriving DecidableEq, Repr

/-- The reset state of a core of capacity `cap` (rule R30): buffers empty, `RAW` all zero, `ERRS = 0`,
`pc = 0`; no command listed, none answered, no decoder at work. -/
def State.resetWith (cap : Nat) : State where
  b0 := []
  b1 := []
  b2 := []
  b3 := []
  raw := []
  errs := 0
  pc := 0
  prog := []
  rsp := none
  job := none
  cap := cap

/-- The machine right after reset, at the capacity of `Config.cap` (notes/assumptions/1.md). -/
def State.reset : State := State.resetWith Config.cap

end Sys2Proof.Machine
end

