-- ==== Sys2Proof/Machine/Flags.lean ====
section
/-! DEFINITION. `ERRS`, the only flags of the core (`spec/10_state.md` rules R26, R27), and the error
codes that number its bits (`spec/30_encoding.md` rule R66).  There is no carry, overflow or condition
flag. -/

namespace Sys2Proof.Machine

/-- The status code of an error, which is also its `ERRS` bit number (rules R26, R66, R185): `INV` 1,
`OOR` 2, `MAL` 3, `CAPX` 4; bit 0 is never set. -/
def ErrorKind.code : ErrorKind → Nat
  | .invalidParameter => 1
  | .outOfRange => 2
  | .malformedStream => 3
  | .capacityExceeded => 4

/-- `ERRS` with the bit of `e` set (rule R190); the other bits keep their values. -/
def errsWith (errs : BitVec 5) (e : ErrorKind) : BitVec 5 := errs ||| (1#5 <<< e.code)

/-- `ERRS` after `CLR_ERRS` (rule R173). -/
def errsCleared : BitVec 5 := 0

end Sys2Proof.Machine
end

