-- ==== Sys2Proof/Machine/Ops.lean ====
section
/-! DEFINITION. The named operations over the state: buffers, `RAW`, and the two ways a command ends
(`spec/00_scope.md` rules R10, R11; `spec/60_exceptions.md` rule R190).

Raising an error is the core's only exception: nothing is saved, no mode changes and control goes to
the next command (rules R190, R194), so there is no return from one. -/

namespace Sys2Proof.Machine

/-! ## `RAW`: a canonical list of cells -/

/-- The canonical form: addresses strictly rising, no listed zero (an unlisted byte reads as 0, the
value reset gives it, rule R30). -/
def Memory.wf : List Host.Cell → Bool
  | [] => true
  | c :: m => c.2 != 0 && m.all (fun c' => c.1 < c'.1) && Memory.wf m

/-- `RAW[a]`. -/
def Memory.read : List Host.Cell → Nat → Byte
  | [], _ => 0
  | c :: m, a => if c.1 = a then c.2 else Memory.read m a

/-- `RAW[a] <- y` on a canonical list: writing zero unlists the byte. -/
def Memory.write : List Host.Cell → Nat → Byte → List Host.Cell
  | [], a, y => if y = 0 then [] else [(a, y)]
  | c :: m, a, y =>
    if a < c.1 then (if y = 0 then c :: m else (a, y) :: c :: m)
    else if c.1 = a then (if y = 0 then m else (a, y) :: m)
    else c :: Memory.write m a y

/-- `MemRead(addr, n)` (rule R10). -/
def Memory.readN (m : List Host.Cell) (addr : Nat) : Nat → List Byte
  | 0 => []
  | n + 1 => Memory.read m addr :: Memory.readN m (addr + 1) n

/-- `MemWrite(addr, n, v)` with `n` the length of `v` (rule R10). -/
def Memory.writeN (m : List Host.Cell) (addr : Nat) : List Byte → List Host.Cell
  | [] => m
  | y :: ys => Memory.writeN (Memory.write m addr y) (addr + 1) ys

/-- `RAW_BYTES = ceil_div(CAP, 8)` (rule R6). -/
def State.rawBytes (s : State) : Nat := ceilDiv s.cap 8

/-- `RAW[a]` of a state. -/
def State.rawAt (s : State) (a : Nat) : Byte := Memory.read s.raw a

/-- `RAW` replaced. -/
def State.setRaw (s : State) (m : List Host.Cell) : State := { s with raw := m }

/-! ## The buffers -/

/-- `B[i]`, the whole sequence (rule R10). -/
def State.buf (s : State) : BufId → Bits
  | .b0 => s.b0
  | .b1 => s.b1
  | .b2 => s.b2
  | .b3 => s.b3

/-- `B[i] <- q` (rule R10). -/
def State.setBuf (s : State) (i : BufId) (q : Bits) : State :=
  match i with
  | .b0 => { s with b0 := q }
  | .b1 => { s with b1 := q }
  | .b2 => { s with b2 := q }
  | .b3 => { s with b3 := q }

/-- `ERRS` replaced. -/
def State.setErrs (s : State) (e : BitVec 5) : State := { s with errs := e }

/-! ## How a command ends -/

/-- The response word (`spec/30_encoding.md` rule R65): `status + res*2^3 + off*2^67`. -/
def Response.word (r : Response) : RspWord :=
  BitVec.ofNat 131 (r.status.toNat + r.res.toNat * 2 ^ 3 + r.off.toNat * 2 ^ 67)

/-- The command ends: its response goes out, the host moves to its next command, and whatever a decoder
kept is dead (rules R11, R25, R28). -/
def State.answer (s : State) (r : Response) : State :=
  { s with rsp := some r, pc := s.pc + 1, job := none }

/-- The command succeeds with result `res` (rule R11, step 4): status 0, offset 0. -/
def State.succeed (s : State) (res : Nat) : State :=
  s.answer ⟨0, BitVec.ofNat 64 res, 0⟩

/-- `raise E(off)` (rule R190): applied to the state before the command, so nothing commits; one
`ERRS` bit is set; the response has `res = 0`. -/
def State.raise (s : State) (e : ErrorKind) (off : Nat) : State :=
  (s.setErrs (errsWith s.errs e)).answer ⟨BitVec.ofNat 3 e.code, 0, BitVec.ofNat 64 off⟩

/-- The outcome of every command: a next state (rule R217). -/
abbrev Result := Host.Outcome State Fault Refusal

/-- A command that raises. -/
def raises (e : ErrorKind) (off : Nat) (s : State) : Result := .next (s.raise e off)

/-- A command that succeeds, `s` holding what it commits. -/
def succeeds (res : Nat) (s : State) : Result := .next (s.succeed res)

end Sys2Proof.Machine
end

