-- ==== Sys2Proof/Machine/Operands.lean ====
section
/-! DEFINITION. The operand forms of the commands (`spec/30_encoding.md` rules R61, R63) and their
domains: every operand is a whole 64-bit field read as an unsigned number; `d` and `s` name a buffer.
Each check is the one its command's own rule makes. -/

namespace Sys2Proof.Machine

/-- The number an operand field holds (rule R63). -/
def opVal (a : Operand) : Nat := a.toNat

/-- The word size is in `2..64` (rules R110, R115, R117). -/
def wordSizeInDomain (w : Operand) : Bool := 2 ≤ opVal w && opVal w ≤ 64

/-- The operand of `BS_APPEND` is a bit (rule R94). -/
def isBit (a : Operand) : Bool := opVal a ≤ 1

/-- The bit a legal operand of `BS_APPEND` holds. -/
def bitOf (a : Operand) : Bool := opVal a == 1

/-- The operand of `RAW_WR` is a byte (rule R170). -/
def isByte (a : Operand) : Bool := opVal a ≤ 255

/-- The byte a legal operand of `RAW_WR` holds. -/
def byteOfOperand (a : Operand) : Byte := BitVec.ofNat 8 (opVal a)

/-- The address exists in `RAW` (rules R47, R170, R171). -/
def addrExists (addr : Operand) (s : State) : Bool := opVal addr < s.rawBytes

/-- `start` and `end` are valid bounds in a sequence of length `n` but for the order of the two tests
(rule R95): the first test fails. -/
def endPast (stop : Operand) (n : Nat) : Bool := n < opVal stop

/-- The second test of rule R95 fails. -/
def startPast (start stop : Operand) : Bool := opVal stop < opVal start

end Sys2Proof.Machine
end

