-- ==== Sys2Proof/Machine/Scanner.lean ====
section
/-! DEFINITION. What the two decoders share (`spec/41_wah.md` rule R116, `spec/42_bbc.md` rule R145): the
progress of a scan, the answer of a decode, the way a decompress command ends, and the effect of one
stream unit on a decoder at work. -/

namespace Sys2Proof.Machine

/-- The start of a scan: position 0, nothing emitted. -/
def Scan.start : Scan := ⟨0, []⟩

/-- One unit of the stream, `width` bits of it, stands for `count` copies of `unit`. -/
def Scan.emit (sc : Scan) (width : Nat) (unit : Bits) (count : Nat) : Scan :=
  ⟨sc.pos + width, sc.out ++ [⟨unit, count⟩]⟩

/-- The number of groups or bytes emitted so far (`T` of rule R116, `length(ys)` of rule R145). -/
def Scan.units (sc : Scan) : Nat := (sc.out.map Emit.count).sum

/-- The bits of one emission. -/
def Emit.bits (e : Emit) : Bits := (List.replicate e.count e.unit).flatten

/-- The bits emitted so far, in order (`out` of rule R116). -/
def Scan.bits (sc : Scan) : Bits := sc.out.flatMap Emit.bits

/-- The answer of a decode: a value, or `fail MalformedStream(off)`. -/
inductive DecodeResult (α : Type) where
  | ok (a : α)
  | malformed (off : Nat)
  deriving DecidableEq, Repr

/-- A good stream read to its end: the decoded length, and what the stream emitted, not yet expanded. -/
structure Reading where
  len : Nat
  scan : Scan
  deriving DecidableEq, Repr

/-- The decoded bits (rules R116, R145): the first `len` bits emitted. -/
def Reading.bits (r : Reading) : Bits := r.scan.bits.take r.len

/-- The answer of a decode with its bits written out (rules R116, R145). -/
def DecodeResult.expand : DecodeResult Reading → DecodeResult (Nat × Bits)
  | .ok r => .ok (r.len, r.bits)
  | .malformed off => .malformed off

/-- The end of a decompress command (rules R117, R147): a malformed stream is reported before capacity
(rule R192); only a sequence that fits is committed, and expanded (rule R218). -/
def deliver (d : BufId) (r : DecodeResult Reading) (s : State) : State :=
  match r with
  | .malformed off => s.raise .malformedStream off
  | .ok r =>
    if s.cap < r.len then s.raise .capacityExceeded 0 else (s.setBuf d r.bits).succeed 0

/-- A decoder of WAH words of size `w`. -/
def Codec.readsWahWord (w : Nat) : Codec → Bool
  | .wah w' _ => w == w'
  | .bbc _ => false

/-- A decoder of BBC records. -/
def Codec.readsBbcRecord : Codec → Bool
  | .wah _ _ => false
  | .bbc _ => true

/-- One unit of the stream acts on the decoder that reads it: `effect` says how the scan goes on, or
that the unit is malformed, which ends the command with the position of the unit's first bit (rule
R191).  A unit no decoder of its format reads is data (rule R40). -/
def onScan (reads : Codec → Bool) (effect : Scan → Option Scan) (s : State) : Result :=
  match s.job with
  | none => .fault .noDecoderReading
  | some j =>
    if reads j.codec then
      match effect j.scan with
      | none => raises .malformedStream j.scan.pos s
      | some sc => .next { s with job := some { j with scan := sc } }
    else .fault .noDecoderReading

end Sys2Proof.Machine
end

