-- ==== Sys2Proof/Machine/Bbc.lean ====
section
/-! DEFINITION. The BBC encoder and decoder (`spec/42_bbc.md` rules R140 to R153), the two commands, and
the records of a BBC stream.

A byte of the BBC codec is kept as its eight bits in sequence order, "the byte's 8 bits in input order"
(rule R153). -/

namespace Sys2Proof.Machine

/-! ## Classification -/

/-- The five classes of a byte (rule R143). -/
inductive ByteClass where
  | zero
  | one
  | singleSet (i : BitVec 3)
  | singleClear (i : BitVec 3)
  | literal
  deriving DecidableEq, Repr

/-- The byte whose one set bit has index `i` (rule R74): `2^(7-i)`. -/
def setByte (i : BitVec 3) : Byte := BitVec.ofNat 8 (2 ^ (7 - i.toNat))

/-- The byte whose one clear bit has index `i` (rule R74): `255 - 2^(7-i)`. -/
def clearByte (i : BitVec 3) : Byte := BitVec.ofNat 8 (255 - 2 ^ (7 - i.toNat))

/-- The first index at which `f` gives the byte `y`, from index `i` on. -/
def findIndex (f : BitVec 3 → Byte) (y : Byte) : List (BitVec 3) → Option (BitVec 3)
  | [] => none
  | i :: is => if f i = y then some i else findIndex f y is

/-- The eight indices of a byte. -/
def byteIndices : List (BitVec 3) := [0, 1, 2, 3, 4, 5, 6, 7]

/-- The class of a byte, in the priority order of rule R143. -/
def classOf (y : Byte) : ByteClass :=
  if y = 0x00 then .zero
  else if y = 0xFF then .one
  else
    match findIndex setByte y byteIndices with
    | some i => .singleSet i
    | none =>
      match findIndex clearByte y byteIndices with
      | some i => .singleClear i
      | none => .literal

/-! ## The encoder -/

/-- The number of bytes at the head of the list that equal `y` (rule R153). -/
def byteRun (y : Byte) : List Byte → Nat
  | [] => 0
  | z :: t => if z = y then byteRun y t + 1 else 0

/-- One run record of `n` bytes of value `v` (rules R73, R153). -/
def runRecord (v : Bool) (n : Nat) : BbcRecord :=
  if v then .oneRun (BitVec.ofNat 8 n) else .zeroRun (BitVec.ofNat 8 n)

/-- The records of a run of `rem` bytes (rule R153): full ones while `rem > 255`, then one for the
remainder.  `fuel` bounds the passes; `rem` of them are enough. -/
def runRecords (v : Bool) : Nat → Nat → Bits
  | 0, rem => (runRecord v rem).bits
  | fuel + 1, rem =>
    if Config.runMax < rem then
      (runRecord v Config.runMax).bits ++ runRecords v fuel (rem - Config.runMax)
    else (runRecord v rem).bits

/-- The scan of rule R153 over the bytes that are left; every `0x00` or `0xFF` goes into a run record,
also alone (rule R146).  `fuel` bounds the passes; one a byte is enough. -/
def bbcScan : Nat → List Byte → Bits
  | 0, _ => []
  | _ + 1, [] => []
  | fuel + 1, y :: ys =>
    let r := byteRun y (y :: ys)
    match classOf y with
    | .zero => runRecords false r r ++ bbcScan fuel ((y :: ys).drop r)
    | .one => runRecords true r r ++ bbcScan fuel ((y :: ys).drop r)
    | .singleSet i => (BbcRecord.singleSet i).bits ++ bbcScan fuel ys
    | .singleClear i => (BbcRecord.singleClear i).bits ++ bbcScan fuel ys
    | .literal => (BbcRecord.literal y).bits ++ bbcScan fuel ys

/-- `bbc_enc(x)` (rule R153): the stream and the original length. -/
def bbcEnc (x : Bits) : Bits × Nat :=
  let bytes := pack x
  (bbcScan bytes.length bytes, x.length)

/-- `BBC_COMPRESS Bd, Bs` (rule R144). -/
def execBbcCompress (d b : BufId) (s : State) : Result :=
  if d = b then raises .invalidParameter 0 s
  else
    match bbcEnc (s.buf b) with
    | (c, n) =>
      if s.cap < c.length then raises .capacityExceeded 0 s else succeeds n (s.setBuf d c)

/-! ## The records of a stream -/

/-- A record of `width` bits that stands for `n` bytes `y` (rule R145). -/
def emitBytes (width : Nat) (y : Byte) (n : Nat) (sc : Scan) : Option Scan :=
  some (sc.emit width (bitsOfByte y) n)

/-- A run record: `n` bytes `y`; a run length of 0 is malformed (rules R76, R145). -/
def runEffect (y : Byte) (n : BitVec 8) (sc : Scan) : Option Scan :=
  if n.toNat = 0 then none else emitBytes 11 y n.toNat sc

/-- `BBC_ZERO_RUN` (rule R145, tag 0). -/
def execBbcZeroRun (n : BitVec 8) (s : State) : Result :=
  onScan Codec.readsBbcRecord (runEffect 0x00 n) s

/-- `BBC_ONE_RUN` (rule R145, tag 1). -/
def execBbcOneRun (n : BitVec 8) (s : State) : Result :=
  onScan Codec.readsBbcRecord (runEffect 0xFF n) s

/-- `BBC_SINGLE_SET` (rule R145, tag 2). -/
def execBbcSingleSet (i : BitVec 3) (s : State) : Result :=
  onScan Codec.readsBbcRecord (emitBytes 6 (setByte i) 1) s

/-- `BBC_SINGLE_CLEAR` (rule R145, tag 3). -/
def execBbcSingleClear (i : BitVec 3) (s : State) : Result :=
  onScan Codec.readsBbcRecord (emitBytes 6 (clearByte i) 1) s

/-- `BBC_LITERAL` (rule R145, tag 4). -/
def execBbcLiteral (b : Byte) (s : State) : Result :=
  onScan Codec.readsBbcRecord (emitBytes 11 b 1) s

/-- `BBC_RESERVED_TAG_101` (rules R76, R145): unknown marker kind. -/
def execBbcReserved101 (s : State) : Result := onScan Codec.readsBbcRecord (fun _ => none) s

/-- `BBC_RESERVED_TAG_110` (rules R76, R145). -/
def execBbcReserved110 (s : State) : Result := onScan Codec.readsBbcRecord (fun _ => none) s

/-- `BBC_RESERVED_TAG_111` (rules R76, R145). -/
def execBbcReserved111 (s : State) : Result := onScan Codec.readsBbcRecord (fun _ => none) s

/-! ## The decoder -/

/-- The effect of a record on a scan (rule R145). -/
def bbcRecordEffect : BbcRecord → Scan → Option Scan
  | .zeroRun n => runEffect 0x00 n
  | .oneRun n => runEffect 0xFF n
  | .singleSet i => emitBytes 6 (setByte i) 1
  | .singleClear i => emitBytes 6 (clearByte i) 1
  | .literal b => emitBytes 11 b 1
  | .reserved101 => fun _ => none
  | .reserved110 => fun _ => none
  | .reserved111 => fun _ => none

/-- The loop of rule R145 over the stream `c`.  `fuel` bounds the passes; one a bit of the stream is
enough. -/
def bbcLoop (c : Bits) : Nat → Scan → DecodeResult Scan
  | 0, sc => .ok sc
  | fuel + 1, sc =>
    if sc.pos < c.length then
      match readBbcRecord (c.drop sc.pos) with
      | .reject _ => .malformed sc.pos
      | .unit u =>
        match bbcRecordEffect u sc with
        | none => .malformed sc.pos
        | some sc' => bbcLoop c fuel sc'
    else .ok sc

/-- The end of rule R145: the byte count against `ceil_div(n, 8)`, for a stream of `m` bits. -/
def bbcFinish (n m : Nat) (sc : Scan) : DecodeResult Reading :=
  if sc.units = ceilDiv n 8 then .ok ⟨n, sc⟩ else .malformed m

/-- The whole stream read, and the length checked (rule R145). -/
def bbcRead (c : Bits) (n : Nat) : DecodeResult Reading :=
  match bbcLoop c c.length Scan.start with
  | .malformed off => .malformed off
  | .ok sc => bbcFinish n c.length sc

/-- `bbc_dec(c, n)` (rule R145), with the length `n` beside the decoded bits. -/
def bbcDec (c : Bits) (n : Nat) : DecodeResult (Nat × Bits) := (bbcRead c n).expand

/-- `BBC_DECOMPRESS Bd, Bs, orig_bits` (rule R147). -/
def execBbcDecompress (d b : BufId) (origBits : Operand) (s : State) : Result :=
  if d = b then raises .invalidParameter 0 s
  else .next (deliver d (bbcRead (s.buf b) (opVal origBits)) s)

end Sys2Proof.Machine
end

