-- ==== Sys2Proof/Machine/Builder.lean ====
section
/-! DEFINITION. The bit-sequence builder commands (`spec/40_bitseq.md` rules R90 to R97). -/

namespace Sys2Proof.Machine

/-- `BS_CLEAR Bd` (rule R91). -/
def execBsClear (d : BufId) (s : State) : Result := succeeds 0 (s.setBuf d [])

/-- `BS_LEN Bs` (rule R92). -/
def execBsLen (b : BufId) (s : State) : Result := succeeds (s.buf b).length s

/-- `BS_GET Bs, i` (rule R93). -/
def execBsGet (b : BufId) (i : Operand) (s : State) : Result :=
  match (s.buf b)[opVal i]? with
  | none => raises .outOfRange (opVal i) s
  | some bit => succeeds bit.toNat s

/-- `BS_APPEND Bd, bit` (rule R94). -/
def execBsAppend (d : BufId) (bit : Operand) (s : State) : Result :=
  if !isBit bit then raises .invalidParameter 0 s
  else if (s.buf d).length = s.cap then raises .capacityExceeded 0 s
  else succeeds 0 (s.setBuf d (s.buf d ++ [bitOf bit]))

/-- `BS_SLICE Bd, Bs, start, end` (rule R95): the `end` test comes before the `start` test. -/
def execBsSlice (d b : BufId) (start stop : Operand) (s : State) : Result :=
  if d = b then raises .invalidParameter 0 s
  else if endPast stop (s.buf b).length then raises .outOfRange (opVal stop) s
  else if startPast start stop then raises .outOfRange (opVal start) s
  else succeeds 0 (s.setBuf d (slice (s.buf b) (opVal start) (opVal stop)))

/-- `BS_FROM_BYTES Bd, n` (rule R96). -/
def execBsFromBytes (d : BufId) (n : Operand) (s : State) : Result :=
  if s.cap < opVal n then raises .capacityExceeded 0 s
  else
    succeeds 0 (s.setBuf d (unpack (Memory.readN s.raw 0 (ceilDiv (opVal n) 8)) (opVal n)))

/-- `BS_TO_BYTES Bs` (rule R97): `RAW[a]` for `a >= ceil_div(n, 8)` keeps its value. -/
def execBsToBytes (b : BufId) (s : State) : Result :=
  succeeds (s.buf b).length (s.setRaw (Memory.writeN s.raw 0 (pack (s.buf b))))

end Sys2Proof.Machine
end

