-- ==== Sys2Proof/Machine/System.lean ====
section
/-! DEFINITION. The system commands (`spec/43_system.md` rules R170 to R174). -/

namespace Sys2Proof.Machine

/-- `RAW_WR addr, byte` (rule R170): the byte test comes before the address test (rule R192). -/
def execRawWr (addr byte : Operand) (s : State) : Result :=
  if !isByte byte then raises .invalidParameter 0 s
  else if !addrExists addr s then raises .outOfRange (opVal addr) s
  else succeeds 0 (s.setRaw (Memory.write s.raw (opVal addr) (byteOfOperand byte)))

/-- `RAW_RD addr` (rule R171). -/
def execRawRd (addr : Operand) (s : State) : Result :=
  if !addrExists addr s then raises .outOfRange (opVal addr) s
  else succeeds (s.rawAt (opVal addr)).toNat s

/-- `RD_ERRS` (rule R172). -/
def execRdErrs (s : State) : Result := succeeds s.errs.toNat s

/-- `CLR_ERRS` (rule R173). -/
def execClrErrs (s : State) : Result := succeeds 0 (s.setErrs errsCleared)

/-- The reserved code `op = 7` (rule R174): `InvalidParameter(0)` whatever the other fields hold. -/
def execReservedOp7 (_d _s : BufId) (_a0 _a1 : Operand) (s : State) : Result :=
  raises .invalidParameter 0 s

end Sys2Proof.Machine
end

