-- ==== Sys2Proof/Machine/Wah.lean ====
section
/-! DEFINITION. The WAH encoder and decoder (`spec/41_wah.md` rules R110 to R125), the two commands, and
the two words of a WAH stream. -/

namespace Sys2Proof.Machine

/-! ## Quantities -/

/-- `G = W - 1` (rule R110). -/
def groupSize (w : Nat) : Nat := w - 1

/-- `M = 2^(W-2) - 1` (rule R110). -/
def maxCounter (w : Nat) : Nat := 2 ^ (w - 2) - 1

/-- `final_bits` of an input of `n` bits (rule R113). -/
def trailer (w n : Nat) : Nat :=
  if n = 0 then 0 else n - (ceilDiv n (groupSize w) - 1) * groupSize w

/-! ## The encoder -/

/-- A group is all zeros or all ones (rule R114). -/
def fillEligible (w : Nat) (g : Bits) : Bool :=
  g == rep false (groupSize w) || g == rep true (groupSize w)

/-- The number of groups at the head of the list that equal `g` (rule R114). -/
def runLength (g : Bits) : List Bits → Nat
  | [] => 0
  | h :: t => if h = g then runLength g t + 1 else 0

/-- The fill words of `rem` groups of value `v` (rule R125): full words while `rem > M`, then one for
the remainder, whatever its size.  `fuel` bounds the passes; `rem` of them are enough, since each
lowers `rem` by `M >= 1` (rule R213). -/
def fillWords (w : Nat) (v : Bool) : Nat → Nat → Bits
  | 0, rem => (WahWord.fill w v rem).bits
  | fuel + 1, rem =>
    if maxCounter w < rem then
      (WahWord.fill w v (maxCounter w)).bits ++ fillWords w v fuel (rem - maxCounter w)
    else (WahWord.fill w v rem).bits

/-- The scan of rule R125 over the groups that are left: a run of two or more fill-eligible groups
becomes fill words if a fill word can count at all (rules R118, R119), any other group a literal word.
`fuel` bounds the passes; one a group is enough. -/
def wahScan (w : Nat) : Nat → List Bits → Bits
  | 0, _ => []
  | _ + 1, [] => []
  | fuel + 1, g :: gs =>
    let r := if fillEligible w g then runLength g (g :: gs) else 0
    if 2 ≤ r ∧ 1 ≤ maxCounter w then
      fillWords w (g.headD false) r r ++ wahScan w fuel ((g :: gs).drop r)
    else (WahWord.literal g).bits ++ wahScan w fuel gs

/-- `wah_enc(x, W)` (rule R125): the stream and the trailer. -/
def wahEnc (x : Bits) (w : Nat) : Bits × Nat :=
  let groups := partition (groupSize w) x
  (wahScan w groups.length groups, trailer w x.length)

/-- `WAH_COMPRESS Bd, Bs, W` (rule R115). -/
def execWahCompress (d b : BufId) (w : Operand) (s : State) : Result :=
  if d = b then raises .invalidParameter 0 s
  else if !wordSizeInDomain w then raises .invalidParameter 0 s
  else
    match wahEnc (s.buf b) (opVal w) with
    | (c, f) =>
      if s.cap < c.length then raises .capacityExceeded 0 s else succeeds f (s.setBuf d c)

/-! ## The words of a stream -/

/-- A literal word emits its payload (rules R68, R116). -/
def wahLiteralEffect (payload : Bits) (sc : Scan) : Option Scan :=
  some (sc.emit (payload.length + 1) payload 1)

/-- A fill word emits `count` groups of its value; a counter of 0 is malformed (rules R69, R71,
R116). -/
def wahFillEffect (w : Nat) (v : Bool) (count : Nat) (sc : Scan) : Option Scan :=
  if count = 0 then none else some (sc.emit w (rep v (groupSize w)) count)

/-- `WAH_LITERAL`: the decoder that reads the word emits its payload. -/
def execWahLiteral (payload : Bits) (s : State) : Result :=
  onScan (Codec.readsWahWord (payload.length + 1)) (wahLiteralEffect payload) s

/-- `WAH_FILL`: the decoder that reads the word emits its groups, or fails. -/
def execWahFill (w : Nat) (v : Bool) (count : Nat) (s : State) : Result :=
  onScan (Codec.readsWahWord w) (wahFillEffect w v count) s

/-! ## The decoder -/

/-- The effect of a word on a scan. -/
def wahWordEffect : WahWord → Scan → Option Scan
  | .literal payload => wahLiteralEffect payload
  | .fill w v count => wahFillEffect w v count

/-- The loop of rule R116 over the stream `c`.  `fuel` bounds the passes; one a bit of the stream is
enough, since a word takes at least one. -/
def wahLoop (w : Nat) (c : Bits) : Nat → Scan → DecodeResult Scan
  | 0, sc => .ok sc
  | fuel + 1, sc =>
    if sc.pos < c.length then
      match readWahWord w (c.drop sc.pos) with
      | .reject _ => .malformed sc.pos
      | .unit u =>
        match wahWordEffect u sc with
        | none => .malformed sc.pos
        | some sc' => wahLoop w c fuel sc'
    else .ok sc

/-- The end of rule R116: the trailer `f` against the `T` groups of a stream of `m` bits, then the
decoded length. -/
def wahFinish (w f m : Nat) (sc : Scan) : DecodeResult Reading :=
  if sc.units = 0 then
    if f = 0 then .ok ⟨0, sc⟩ else .malformed m
  else if f < 1 ∨ groupSize w < f then .malformed m
  else .ok ⟨(sc.units - 1) * groupSize w + f, sc⟩

/-- The whole stream read, and the trailer checked (rule R116). -/
def wahRead (c : Bits) (f w : Nat) : DecodeResult Reading :=
  match wahLoop w c c.length Scan.start with
  | .malformed off => .malformed off
  | .ok sc => wahFinish w f c.length sc

/-- `wah_dec(c, f, W)` (rule R116): the decoded length and the decoded bits. -/
def wahDec (c : Bits) (f w : Nat) : DecodeResult (Nat × Bits) := (wahRead c f w).expand

/-- `WAH_DECOMPRESS Bd, Bs, W, final_bits` (rule R117). -/
def execWahDecompress (d b : BufId) (w finalBits : Operand) (s : State) : Result :=
  if d = b then raises .invalidParameter 0 s
  else if !wordSizeInDomain w then raises .invalidParameter 0 s
  else .next (deliver d (wahRead (s.buf b) (opVal finalBits) (opVal w)) s)

end Sys2Proof.Machine
end

