-- ==== Sys2Proof/Machine/Dispatch.lean ====
section
/-! DEFINITION. The dispatch: one arm per instruction, one meaning per arm. -/

namespace Sys2Proof.Machine

/-- The meaning of an instruction.  For a command, the format check of
`spec/00_scope.md` rule R11 has passed (the decoder makes it). -/
def exec (i : Instr) (s : State) : Host.Outcome State Fault Refusal :=
  match i with
  | .bsClear d => Sys2Proof.Machine.execBsClear d s
  | .bsLen b => Sys2Proof.Machine.execBsLen b s
  | .bsGet b n => Sys2Proof.Machine.execBsGet b n s
  | .bsAppend d bit => Sys2Proof.Machine.execBsAppend d bit s
  | .bsSlice d b start stop => Sys2Proof.Machine.execBsSlice d b start stop s
  | .bsFromBytes d n => Sys2Proof.Machine.execBsFromBytes d n s
  | .bsToBytes b => Sys2Proof.Machine.execBsToBytes b s
  | .reservedOp7 d b x y => Sys2Proof.Machine.execReservedOp7 d b x y s
  | .wahCompress d b w => Sys2Proof.Machine.execWahCompress d b w s
  | .wahDecompress d b w f => Sys2Proof.Machine.execWahDecompress d b w f s
  | .bbcCompress d b => Sys2Proof.Machine.execBbcCompress d b s
  | .bbcDecompress d b n => Sys2Proof.Machine.execBbcDecompress d b n s
  | .rawWr addr byte => Sys2Proof.Machine.execRawWr addr byte s
  | .rawRd addr => Sys2Proof.Machine.execRawRd addr s
  | .rdErrs => Sys2Proof.Machine.execRdErrs s
  | .clrErrs => Sys2Proof.Machine.execClrErrs s
  | .wahLiteral payload => Sys2Proof.Machine.execWahLiteral payload s
  | .wahFill w v count => Sys2Proof.Machine.execWahFill w v count s
  | .bbcZeroRun n => Sys2Proof.Machine.execBbcZeroRun n s
  | .bbcOneRun n => Sys2Proof.Machine.execBbcOneRun n s
  | .bbcSingleSet n => Sys2Proof.Machine.execBbcSingleSet n s
  | .bbcSingleClear n => Sys2Proof.Machine.execBbcSingleClear n s
  | .bbcLiteral y => Sys2Proof.Machine.execBbcLiteral y s
  | .bbcReserved101 => Sys2Proof.Machine.execBbcReserved101 s
  | .bbcReserved110 => Sys2Proof.Machine.execBbcReserved110 s
  | .bbcReserved111 => Sys2Proof.Machine.execBbcReserved111 s

end Sys2Proof.Machine
end

