-- ==== Sys2Proof/Machine/Sequencer.lean ====
section
/-! DEFINITION. The sequencer: how the next command reaches the core, and how a decoder takes its next
unit (`spec/00_scope.md` rule R11, `spec/20_memory.md` rules R46, R49, `spec/10_state.md` rule R25). -/

namespace Sys2Proof.Machine

/-- The command word the host presents next; none at the end of its list (rule R25). -/
def State.pending (s : State) : Option CmdWord := s.prog[s.pc]?

/-- One command (rule R11): the format check, then the command's own rule.  A word that is no command
raises `InvalidParameter(0)` before any operand is looked at (rule R64). -/
def runCommand (w : CmdWord) (s : State) : Result :=
  match decodeCommand w with
  | .instr i => exec i s
  | .reject _ => raises .invalidParameter 0 s

/-- The next unit of the stream a decoder reads, as an instruction. -/
def Job.nextUnit (j : Job) : Decoded :=
  match j.codec with
  | .wah w _ => decode (.wahWord w (j.stream.drop j.scan.pos))
  | .bbc _ => decode (.bbcRecord (j.stream.drop j.scan.pos))

/-- What the stream decodes to once all of it is read (rules R116, R145). -/
def Job.finish (j : Job) : DecodeResult Reading :=
  match j.codec with
  | .wah w f => wahFinish w f j.stream.length j.scan
  | .bbc n => bbcFinish n j.stream.length j.scan

/-- One move of a decoder at work: the next unit acts, or, all of the stream read, the command ends.
A decompress command makes all its moves in one step of the machine (rule R46); this finer view of
the same loop is the model's, for the units of a stream (notes/assumptions/2.md). -/
def runUnit (j : Job) (s : State) : Result :=
  if j.scan.pos < j.stream.length then
    match j.nextUnit with
    | .instr i => exec i s
    | .reject _ => raises .malformedStream j.scan.pos s
  else .next (deliver j.dst j.finish s)

/-- A list of command words with `w` at index `i`, zeros before it where the list is shorter. -/
def placeAt (w : CmdWord) : Nat → List CmdWord → List CmdWord
  | 0, ws => w :: ws.drop 1
  | i + 1, [] => 0 :: placeAt w i []
  | i + 1, v :: ws => v :: placeAt w i ws

/-- `s` with an encoding placed where the next step takes it from: a command word in the host's list,
a stream unit under a decoder of its format that has read nothing yet. -/
def State.present (s : State) : Encoded → State
  | .command w => { s with job := none, prog := placeAt w s.pc s.prog }
  | .wahWord w bits => { s with job := some ⟨.wah w 0, .b0, bits, Scan.start⟩ }
  | .bbcRecord bits => { s with job := some ⟨.bbc 0, .b0, bits, Scan.start⟩ }

end Sys2Proof.Machine
end

