-- ==== Sys2Proof/Machine/Step.lean ====
section
/-! DEFINITION. One step of the machine: the next command of the host, from its presentation to its
response (`spec/00_scope.md` rule R11, `spec/20_memory.md` rule R46). -/

namespace Sys2Proof.Machine

/-- One step.  Between commands no decoder is at work, and the step is the next command, whole
(rule R46); at the end of the host's list the run ends (rule R25).  Under a decoder at work, a state no
command leaves behind (rule R28), the step is the decoder's next move. -/
def step (s : State) : Host.Outcome State Fault Refusal :=
  match s.job with
  | some j => runUnit j s
  | none =>
    match s.pending with
    | some w => runCommand w s
    | none => .fault .runEnded

/-- `s` with the table word stored where `step` takes its next instruction from. -/
def State.withFetchWord (s : State) (nbits w : Nat) : State := s.present (tableForm nbits w)

end Sys2Proof.Machine
end

