-- ==== Sys2Proof/Machine/Assembler.lean ====
section
/-! DEFINITION. The notation of programs (`spec/30_encoding.md` rules R80 to R82): assembler text, the two
pseudo-instructions and the ASCII form of a bit sequence.  The core neither produces nor consumes
any of it; the host does. -/

namespace Sys2Proof.Machine

/-- The command words of a list of commands, in order; a stream unit is no command and gives none. -/
def assemble (is : List Instr) : List CmdWord :=
  is.filterMap fun i =>
    match encode i with
    | .command w => some w
    | .wahWord _ _ | .bbcRecord _ => none

/-- `BS_LIT Bd, "b0b1...bk"` (rule R81): `BS_CLEAR Bd`, then one `BS_APPEND` a bit. -/
def bsLit (d : BufId) (q : Bits) : List Instr :=
  .bsClear d :: q.map fun b => .bsAppend d (if b then 1 else 0)

/-- `RAW_LOAD addr, [y0, ..., yk]` (rule R81): one `RAW_WR` a byte, at rising addresses.  The rule does
not say what an address past `2^64 - 1` is, and an operand has 64 bits (rule R63): such an address is
taken modulo `2^64`, so that the one after `2^64 - 1` is 0.  DESIGN CHOICE (notes/assumptions/13.md). -/
def rawLoad (addr : Nat) : List Byte → List Instr
  | [] => []
  | y :: ys => .rawWr (BitVec.ofNat 64 addr) (y.setWidth 64) :: rawLoad (addr + 1) ys

/-- The ASCII form of a bit sequence (rule R82): character `i` is bit `i`. -/
def asciiOf (q : Bits) : List Char := q.map fun b => if b then '1' else '0'

/-- The bit sequence an ASCII form stands for (rules R81, R82): spaces are ignored, any other character
is none of the form. -/
def bitsOfAscii : List Char → Option Bits
  | [] => some []
  | c :: cs =>
    if c = ' ' then bitsOfAscii cs
    else if c = '0' then (bitsOfAscii cs).map (false :: ·)
    else if c = '1' then (bitsOfAscii cs).map (true :: ·)
    else none

/-- `B0`..`B3`. -/
def bufName : BufId → String
  | .b0 => "B0"
  | .b1 => "B1"
  | .b2 => "B2"
  | .b3 => "B3"

/-- A decimal operand. -/
def decimal (a : Operand) : String := toString a.toNat

/-- The operands of a line, destination first, separated by commas. -/
def operandText : List String → String
  | [] => ""
  | [x] => " " ++ x
  | x :: xs => " " ++ x ++ "," ++ operandText xs

/-- The assembler line of a command (rule R80); the reserved code and the units of a stream have
none. -/
def asm (i : Instr) : Option String :=
  let line (ops : List String) : Option String := some (i.mnemonic ++ operandText ops)
  match i with
  | .bsClear d => line [bufName d]
  | .bsLen s => line [bufName s]
  | .bsGet s n => line [bufName s, decimal n]
  | .bsAppend d bit => line [bufName d, decimal bit]
  | .bsSlice d s start stop => line [bufName d, bufName s, decimal start, decimal stop]
  | .bsFromBytes d n => line [bufName d, decimal n]
  | .bsToBytes s => line [bufName s]
  | .wahCompress d s w => line [bufName d, bufName s, decimal w]
  | .wahDecompress d s w f => line [bufName d, bufName s, decimal w, decimal f]
  | .bbcCompress d s => line [bufName d, bufName s]
  | .bbcDecompress d s n => line [bufName d, bufName s, decimal n]
  | .rawWr addr byte => line [decimal addr, decimal byte]
  | .rawRd addr => line [decimal addr]
  | .rdErrs => line []
  | .clrErrs => line []
  | .reservedOp7 _ _ _ _ => none
  | .wahLiteral _ | .wahFill _ _ _ | .bbcZeroRun _ | .bbcOneRun _ | .bbcSingleSet _
  | .bbcSingleClear _ | .bbcLiteral _ | .bbcReserved101 | .bbcReserved110 | .bbcReserved111 => none

/-- The name of a status code (rule R66); codes 5 to 7 are never produced. -/
def statusName (st : BitVec 3) : String :=
  match st.toNat with
  | 0 => "OK"
  | 1 => "InvalidParameter"
  | 2 => "OutOfRange"
  | 3 => "MalformedStream"
  | 4 => "CapacityExceeded"
  | _ => "(never produced)"

/-- A response as text (rule R80). -/
def responseText (r : Response) : String :=
  "-> status=" ++ statusName r.status ++ " res=" ++ decimal r.res ++ " off=" ++ decimal r.off

end Sys2Proof.Machine
end

