-- ==== Sys2Proof/Safety.lean ====
section
/-! DEFINITION. What claims about the machine are stated in: the invariant of a core between commands, how
a command ends as the host sees it, and what it leaves alone. -/

namespace Sys2Proof.Machine

/-! ## The invariant -/

/-- `1 <= CAP <= 2^64 - 1` (`spec/00_scope.md` rule R6). -/
def LegalCap (cap : Nat) : Prop := 1 ≤ cap ∧ cap < Config.capBound

/-- The invariant of a core between commands. -/
structure State.Inv (s : State) : Prop where
  /-- The capacity is legal (rule R6). -/
  cap_legal : LegalCap s.cap
  /-- `0 <= len(B[i]) <= CAP` (rule R22). -/
  bufs_fit : ∀ b, (s.buf b).length ≤ s.cap
  /-- `RAW` is in its canonical form. -/
  raw_canonical : Memory.wf s.raw = true
  /-- Nothing is held at an address that does not exist (rule R47). -/
  raw_in_range : ∀ a, s.rawBytes ≤ a → s.rawAt a = 0
  /-- Bit 0 of `ERRS` reads 0 (rule R26). -/
  errs_bit0 : s.errs.getLsbD 0 = false
  /-- `pc` is an index of the host's list, or its end (rule R25). -/
  pc_in : s.pc ≤ s.prog.length
  /-- No decoder is at work (rule R28). -/
  idle : s.job = none

/-! ## What a command leaves alone -/

/-- Every buffer but `d` is as before. -/
def SameBufsBut (d : BufId) (s t : State) : Prop := ∀ b, b ≠ d → t.buf b = s.buf b

/-- Every buffer is as before. -/
def SameBufs (s t : State) : Prop := ∀ b, t.buf b = s.buf b

/-- Every byte of `RAW` reads as before. -/
def SameRaw (s t : State) : Prop := ∀ a, t.rawAt a = s.rawAt a

/-- The host's list and the capacity are as before: nothing writes them. -/
def SameHost (s t : State) : Prop := t.prog = s.prog ∧ t.cap = s.cap

/-- Buffers, `RAW` and `ERRS` are as before. -/
def Untouched (s t : State) : Prop := SameBufs s t ∧ SameRaw s t ∧ t.errs = s.errs

/-- Only buffer `d` differs, and it holds `q`. -/
def OnlyBuf (d : BufId) (q : Bits) (s t : State) : Prop :=
  t.buf d = q ∧ SameBufsBut d s t ∧ SameRaw s t ∧ t.errs = s.errs

/-! ## How a command ends -/

/-- The command ended with response `r`: the host moves on, nothing of a decoder is left, the list and
the capacity stand. -/
def Answered (r : Response) (s t : State) : Prop :=
  t.rsp = some r ∧ t.pc = s.pc + 1 ∧ t.job = none ∧ SameHost s t

/-- The command succeeded with result `res` (rule R65). -/
def Succeeded (res : Nat) (s t : State) : Prop :=
  ∃ r, Answered r s t ∧ r.status = 0 ∧ r.res.toNat = res ∧ r.off = 0

/-- Exactly the `ERRS` bit of code `c` is set; the others are as before (rule R190). -/
def ErrsPlus (c : Nat) (s t : State) : Prop :=
  ∀ k, k < 5 → t.errs.getLsbD k = (s.errs.getLsbD k || k == c)

/-- The command raised `e` with offset `off` and changed nothing else (rule R190). -/
def Failed (e : ErrorKind) (off : Nat) (s t : State) : Prop :=
  ∃ r, Answered r s t ∧ r.status.toNat = e.code ∧ r.res = 0 ∧ r.off.toNat = off ∧
    SameBufs s t ∧ SameRaw s t ∧ ErrsPlus e.code s t

/-! ## What an instruction may write -/

/-- The buffer a command writes, its `d` (`spec/10_state.md` rule R20, "written by"). -/
def destOf : Instr → Option BufId
  | .bsClear d => some d
  | .bsAppend d _ => some d
  | .bsSlice d _ _ _ => some d
  | .bsFromBytes d _ => some d
  | .wahCompress d _ _ => some d
  | .wahDecompress d _ _ _ => some d
  | .bbcCompress d _ => some d
  | .bbcDecompress d _ _ => some d
  | .bsLen _ | .bsGet _ _ | .bsToBytes _ | .reservedOp7 _ _ _ _ | .rawWr _ _ | .rawRd _ | .rdErrs
  | .clrErrs | .wahLiteral _ | .wahFill _ _ _ | .bbcZeroRun _ | .bbcOneRun _ | .bbcSingleSet _
  | .bbcSingleClear _ | .bbcLiteral _ | .bbcReserved101 | .bbcReserved110 | .bbcReserved111 => none

/-- The two commands that write `RAW` (rules R20, R24: "No other command touches it"). -/
def writesRaw : Instr → Bool
  | .bsToBytes _ | .rawWr _ _ => true
  | .bsClear _ | .bsLen _ | .bsGet _ _ | .bsAppend _ _ | .bsSlice _ _ _ _ | .bsFromBytes _ _
  | .reservedOp7 _ _ _ _ | .wahCompress _ _ _ | .wahDecompress _ _ _ _ | .bbcCompress _ _
  | .bbcDecompress _ _ _ | .rawRd _ | .rdErrs | .clrErrs | .wahLiteral _ | .wahFill _ _ _
  | .bbcZeroRun _ | .bbcOneRun _ | .bbcSingleSet _ | .bbcSingleClear _ | .bbcLiteral _
  | .bbcReserved101 | .bbcReserved110 | .bbcReserved111 => false

/-! ## Words and lists of commands -/

/-- The command word whose fields are these numbers decodes to `i` (rule R60). -/
def HasWord (i : Instr) (op d s a0 a1 : Nat) : Prop :=
  ∃ w : CmdWord, w.toNat = op + d * 2 ^ 4 + s * 2 ^ 6 + a0 * 2 ^ 8 + a1 * 2 ^ 72 ∧
    decodeCommand w = .instr i

/-- The number of a buffer (rule R61). -/
def bufNumber : BufId → Nat
  | .b0 => 0
  | .b1 => 1
  | .b2 => 2
  | .b3 => 3

/-- Commands executed one after the other, as long as none stops the machine. -/
def execAll : List Instr → State → Result
  | [], s => .next s
  | i :: is, s =>
    match exec i s with
    | .next t => execAll is t
    | .fault r => .fault r
    | .refused r => .refused r

/-! ## What stream units stand for, written from the rules and not from the decoder -/

/-- A word a WAH decoder accepts at word size `w`: `w` bits, and a counter that is not 0 (rules R68,
R69, R71). -/
def wahLegal (w : Nat) : WahWord → Prop
  | .literal payload => payload.length + 1 = w
  | .fill w' _ count => w' = w ∧ 1 ≤ count ∧ count < 2 ^ (w - 2)

/-- The number of groups a WAH word stands for (rule R69). -/
def wahGroups : WahWord → Nat
  | .literal _ => 1
  | .fill _ _ count => count

/-- The bits a WAH word stands for (rule R116). -/
def wahEmits : WahWord → Bits
  | .literal payload => payload
  | .fill w v count => rep v (count * (w - 1))

/-- A record a BBC decoder accepts: a known tag and a run length that is not 0 (rule R76). -/
def bbcLegal : BbcRecord → Prop
  | .zeroRun n => n ≠ 0
  | .oneRun n => n ≠ 0
  | .singleSet _ => True
  | .singleClear _ => True
  | .literal _ => True
  | .reserved101 => False
  | .reserved110 => False
  | .reserved111 => False

/-- The bytes a BBC record stands for (rule R145). -/
def bbcBytes : BbcRecord → List Byte
  | .zeroRun n => List.replicate n.toNat 0x00
  | .oneRun n => List.replicate n.toNat 0xFF
  | .singleSet i => [BitVec.ofNat 8 (2 ^ (7 - i.toNat))]
  | .singleClear i => [BitVec.ofNat 8 (255 - 2 ^ (7 - i.toNat))]
  | .literal b => [b]
  | .reserved101 => []
  | .reserved110 => []
  | .reserved111 => []

/-- A decoder at work at `j` has taken one unit: the scan is `sc`, all else is as before. -/
def Scanned (j : Job) (sc : Scan) (s t : State) : Prop :=
  t.job = some { j with scan := sc } ∧ Untouched s t ∧ SameHost s t ∧ t.pc = s.pc ∧ t.rsp = s.rsp

end Sys2Proof.Machine
end

