-- ==== Sys2Proof/Certificates/Slice0/Obligations.lean ====
section
/-! DEFINITION. What is claimed of the model, for the provers. -/

open Sys2Proof Sys2Proof.Machine

/-! ## Reset, steps, the whole machine -/

/-- Rule R30, at the capacity reset has and at any other. -/
def Obligations.ResetState : Prop :=
  ∀ s : State, (s = State.reset ∨ ∃ cap, s = State.resetWith cap) →
    (∀ b, s.buf b = []) ∧ (∀ a, s.rawAt a = 0) ∧ s.errs = 0 ∧ s.pc = 0

/-- The invariant holds after reset at every legal capacity.  That `State.reset` has capacity 4096 is the
model's choice (notes/assumptions/1.md). -/
def Obligations.ResetMeetsInvariant : Prop :=
  State.reset.Inv ∧ ∀ cap, LegalCap cap → (State.resetWith cap).Inv

/-- Every step keeps the invariant: buffers never exceed `CAP` (R22), `RAW` stays canonical and in range
(R47), `ERRS` bit 0 stays 0 (R26), `pc` stays in the host's list (R25), no decoder outlives its command
(R28). -/
def Obligations.StepKeepsInvariant : Prop :=
  ∀ s t : State, s.Inv → step s = .next t → t.Inv

/-- Rule R11: a step is the pending command, decoded and executed; a word that is no command raises
`InvalidParameter(0)`. -/
def Obligations.StepRunsPendingCommand : Prop :=
  ∀ (s : State) (w : CmdWord), s.job = none → s.prog[s.pc]? = some w →
    (∀ i, decodeCommand w = .instr i → step s = exec i s) ∧
    (∀ r, decodeCommand w = .reject r → step s = .next (s.raise .invalidParameter 0))

/-- Under a decoder at work (the model's finer view, notes/assumptions/2.md) a step is the next unit of
its stream, decoded and executed; a unit cut short is malformed at its first bit; at the end of the
stream the command ends. -/
def Obligations.StepRunsNextUnit : Prop :=
  ∀ (s : State) (j : Job), s.job = some j →
    (j.scan.pos < j.stream.length → ∀ w f, j.codec = .wah w f →
      (∀ u, readWahWord w (j.stream.drop j.scan.pos) = .unit u → step s = exec u.toInstr s) ∧
      (∀ r, readWahWord w (j.stream.drop j.scan.pos) = .reject r →
        step s = .next (s.raise .malformedStream j.scan.pos))) ∧
    (j.scan.pos < j.stream.length → ∀ n, j.codec = .bbc n →
      (∀ u, readBbcRecord (j.stream.drop j.scan.pos) = .unit u → step s = exec u.toInstr s) ∧
      (∀ r, readBbcRecord (j.stream.drop j.scan.pos) = .reject r →
        step s = .next (s.raise .malformedStream j.scan.pos))) ∧
    (j.stream.length ≤ j.scan.pos →
      (∀ w f, j.codec = .wah w f →
        step s = .next (deliver j.dst (wahFinish w f j.stream.length j.scan) s)) ∧
      (∀ n, j.codec = .bbc n →
        step s = .next (deliver j.dst (bbcFinish n j.stream.length j.scan) s)))

/-- Where the model stops, and that it stops nowhere else.  A step stops exactly at the end of the host's
list with no decoder at work (R25; that it stops there is the model's choice, notes/assumptions/3.md).
An instruction stops exactly if it is a unit of a stream that no decoder of its format and word size
reads (the model's choice, notes/assumptions/2.md).  Nothing is refused. -/
def Obligations.WhereTheModelStops : Prop :=
  (∀ (s : State) (r : Fault), step s = .fault r ↔
    r = .runEnded ∧ s.job = none ∧ s.prog.length ≤ s.pc) ∧
  (∀ (i : Instr) (s : State) (r : Fault), exec i s = .fault r ↔ r = .noDecoderReading ∧
    ((∃ p : Bits, i = .wahLiteral p ∧ ∀ j f, s.job = some j → j.codec ≠ .wah (p.length + 1) f) ∨
     (∃ w v n, i = .wahFill w v n ∧ ∀ j f, s.job = some j → j.codec ≠ .wah w f) ∨
     (∃ u : BbcRecord, i = u.toInstr ∧ ∀ j m, s.job = some j → j.codec ≠ .bbc m))) ∧
  (∀ (s : State) (r : Refusal), step s ≠ .refused r) ∧
  (∀ (i : Instr) (s : State) (r : Refusal), exec i s ≠ .refused r)

/-- Totality (R217): whatever the pending word, the step answers a next state with exactly one response,
whose status is one of the five of rule R66, and the host moves on. -/
def Obligations.EveryCommandAnswers : Prop :=
  ∀ (s : State) (w : CmdWord), s.job = none → s.prog[s.pc]? = some w →
    ∃ t r, step s = .next t ∧ Answered r s t ∧ r.status.toNat ≤ 4 ∧
      (r.status = 0 → r.off = 0) ∧ (r.status ≠ 0 → r.res = 0)

/-- Rule R190: a command that fails, whichever it is, changes one `ERRS` bit, the one of its status, and
nothing else. -/
def Obligations.FailureIsPrecise : Prop :=
  (∀ (s : State) (e : ErrorKind) (off : Nat), off < 2 ^ 64 → Failed e off s (s.raise e off)) ∧
  (∀ (s t : State) (w : CmdWord) (r : Response), s.job = none → s.prog[s.pc]? = some w →
    step s = .next t → t.rsp = some r → r.status ≠ 0 → ∃ e off, Failed e off s t)

/-- Rule R26, the other half: a command that succeeds changes no `ERRS` bit, unless it is `CLR_ERRS`. -/
def Obligations.SuccessKeepsErrs : Prop :=
  ∀ (s t : State) (w : CmdWord) (r : Response), s.job = none → s.prog[s.pc]? = some w →
    step s = .next t → t.rsp = some r → r.status = 0 →
    t.errs = s.errs ∨ (decodeCommand w = .instr .clrErrs ∧ t.errs = 0)

/-- Rule R26: "No command's behaviour depends on `ERRS`".  Only `RD_ERRS` tells two values of it apart. -/
def Obligations.NothingDependsOnErrs : Prop :=
  ∀ (i : Instr) (s t : State) (e : BitVec 5), i ≠ .rdErrs → exec i s = .next t →
    ∃ t', exec i (s.setErrs e) = .next t' ∧ t'.setErrs 0 = t.setErrs 0

/-- Rule R194: "issuing the same failing command again, on the same state, fails the same way". -/
def Obligations.RetryFailsTheSame : Prop :=
  ∀ (i : Instr) (s t : State) (r : Response), s.job = none → exec i s = .next t →
    t.rsp = some r → r.status ≠ 0 → ∃ t', exec i t = .next t' ∧ t'.rsp = some r

/-- The "written by" column of rule R20: an instruction writes no buffer but its `d`, only `RAW_WR` and
`BS_TO_BYTES` write `RAW`, and nothing writes the host's list or the capacity. -/
def Obligations.OnlyDestinationsChange : Prop :=
  ∀ (i : Instr) (s t : State), exec i s = .next t →
    SameHost s t ∧ (∀ b, destOf i ≠ some b → t.buf b = s.buf b) ∧
    (writesRaw i = false → SameRaw s t)

/-! ## Encodings -/

/-- Decoding the encoding of a well-formed instruction gives it back, for every instruction and every
operand. -/
def Obligations.DecodeInvertsEncode : Prop :=
  ∀ i : Instr, i.wellFormed = true → decode (encode i) = .instr i

/-- Every legal command word has one reading, and that reading one word. -/
def Obligations.CommandWordsAreCanonical : Prop :=
  ∀ (w : CmdWord) (i : Instr), decodeCommand w = .instr i → encode i = .command w

/-- A unit is read from the head of a stream whatever follows it: no prefix, mode or later bit changes how
it is read (R67, R75). -/
def Obligations.UnitsAreReadInPlace : Prop :=
  (∀ (w : Nat) (u : WahWord) (rest : Bits), u.toInstr.wellFormed = true → u.bits.length = w →
    readWahWord w (u.bits ++ rest) = .unit u) ∧
  (∀ (r : BbcRecord) (rest : Bits), readBbcRecord (r.bits ++ rest) = .unit r)

/-- Rules R61 and R62: a word is a command exactly when `w AND mask = match`, and its operands are the
fields of rule R61. -/
def Obligations.OpcodeTable : Prop :=
  ∀ w : CmdWord,
    let d := BufId.ofField (w.extractLsb' 4 2)
    let s := BufId.ofField (w.extractLsb' 6 2)
    let a0 : Operand := w.extractLsb' 8 64
    let a1 : Operand := w.extractLsb' 72 64
    (bufNumber d = (w.extractLsb' 4 2).toNat ∧ bufNumber s = (w.extractLsb' 6 2).toNat) ∧
    (w &&& 0xFFFFFFFFFFFFFFFFFFFFFFFFFFFFFFFFCF = 0x0 ↔ decodeCommand w = .instr (.bsClear d)) ∧
    (w &&& 0xFFFFFFFFFFFFFFFFFFFFFFFFFFFFFFFF3F = 0x1 ↔ decodeCommand w = .instr (.bsLen s)) ∧
    (w &&& 0xFFFFFFFFFFFFFFFF00000000000000003F = 0x2 ↔ decodeCommand w = .instr (.bsGet s a0)) ∧
    (w &&& 0xFFFFFFFFFFFFFFFF0000000000000000CF = 0x3 ↔ decodeCommand w = .instr (.bsAppend d a0)) ∧
    (w &&& 0xF = 0x4 ↔ decodeCommand w = .instr (.bsSlice d s a0 a1)) ∧
    (w &&& 0xFFFFFFFFFFFFFFFF0000000000000000CF = 0x5 ↔
      decodeCommand w = .instr (.bsFromBytes d a0)) ∧
    (w &&& 0xFFFFFFFFFFFFFFFFFFFFFFFFFFFFFFFF3F = 0x6 ↔ decodeCommand w = .instr (.bsToBytes s)) ∧
    (w &&& 0xF = 0x7 ↔ decodeCommand w = .instr (.reservedOp7 d s a0 a1)) ∧
    (w &&& 0xFFFFFFFFFFFFFFFF00000000000000000F = 0x8 ↔
      decodeCommand w = .instr (.wahCompress d s a0)) ∧
    (w &&& 0xF = 0x9 ↔ decodeCommand w = .instr (.wahDecompress d s a0 a1)) ∧
    (w &&& 0xFFFFFFFFFFFFFFFFFFFFFFFFFFFFFFFF0F = 0xA ↔
      decodeCommand w = .instr (.bbcCompress d s)) ∧
    (w &&& 0xFFFFFFFFFFFFFFFF00000000000000000F = 0xB ↔
      decodeCommand w = .instr (.bbcDecompress d s a0)) ∧
    (w &&& 0xFF = 0xC ↔ decodeCommand w = .instr (.rawWr a0 a1)) ∧
    (w &&& 0xFFFFFFFFFFFFFFFF0000000000000000FF = 0xD ↔ decodeCommand w = .instr (.rawRd a0)) ∧
    (w &&& 0xFFFFFFFFFFFFFFFFFFFFFFFFFFFFFFFFFF = 0xE ↔ decodeCommand w = .instr .rdErrs) ∧
    (w &&& 0xFFFFFFFFFFFFFFFFFFFFFFFFFFFFFFFFFF = 0xF ↔ decodeCommand w = .instr .clrErrs)

/-- Rule R64: a word with `op = 7`, or one that matches no row, raises `InvalidParameter(0)` and changes
nothing but `ERRS`. -/
def Obligations.IllegalWordsRaise : Prop :=
  ∀ (s : State) (w : CmdWord), s.job = none → s.prog[s.pc]? = some w →
    (w.extractLsb' 0 4 = 7#4 ∨ ∀ row ∈ opcodeRows, row.hit w = false) →
    ∃ t, step s = .next t ∧ Failed .invalidParameter 0 s t

/-- Words written out in `spec/95_test_vectors.md` decode to what they stand for. -/
def Obligations.SampleWordsDecode : Prop :=
  decodeCommand 0x103 = .instr (.bsAppend .b0 1) ∧
  decodeCommand 0x5000000000000000214 = .instr (.bsSlice .b1 .b0 2 5) ∧
  decodeCommand 0x3000000000000000469 = .instr (.wahDecompress .b2 .b1 4 3) ∧
  decodeCommand 0x336B = .instr (.bbcDecompress .b2 .b1 51) ∧
  decodeCommand 0x6500000000000000010C = .instr (.rawWr 1 0x65) ∧
  decode (.wahWord 4 [true, false, true, true]) = .instr (.wahFill 4 false 3) ∧
  decode (.bbcRecord [false, true, true, true, true, true]) = .instr (.bbcSingleClear 7)

/-- The response word of rule R65: its fields are where the rule puts them, and its value is
`status + res*2^3 + off*2^67`. -/
def Obligations.ResponseWordFields : Prop :=
  ∀ r : Response, r.word.extractLsb' 0 3 = r.status ∧ r.word.extractLsb' 3 64 = r.res ∧
    r.word.extractLsb' 67 64 = r.off ∧
    r.word.toNat = r.status.toNat + r.res.toNat * 2 ^ 3 + r.off.toNat * 2 ^ 67

/-! ## Numbers, bytes, units -/

/-- Rule R8: `val` and `bits_N`. -/
def Obligations.ValAndBits : Prop :=
  (∀ q : Bits, val q = ∑ i : Fin q.length, (q[i]).toNat * 2 ^ (q.length - 1 - i.val)) ∧
  (∀ n v, v < 2 ^ n → (bitsN n v).length = n ∧ val (bitsN n v) = v) ∧
  (∀ n v (q : Bits), v < 2 ^ n → q.length = n → val q = v → q = bitsN n v)

/-- Rules R42 and R43: `pack` and `unpack`, digit by digit, and that `unpack` undoes `pack`. -/
def Obligations.PackAndUnpack : Prop :=
  (∀ q : Bits, (pack q).length = ceilDiv q.length 8 ∧
    ∀ j, j < ceilDiv q.length 8 → ∃ y, (pack q)[j]? = some y ∧
      y.toNat = val (slice (q ++ rep false (8 * ceilDiv q.length 8 - q.length)) (8 * j) (8 * j + 8))) ∧
  (∀ (bytes : List Byte) (n : Nat), bytes.length = ceilDiv n 8 → (unpack bytes n).length = n ∧
    ∀ i, i < n → (unpack bytes n)[i]? =
      (bytes[i / 8]?).map fun y => decide (y.toNat / 2 ^ (7 - i % 8) % 2 = 1)) ∧
  (∀ q : Bits, unpack (pack q) q.length = q)

/-- Rules R112 and R113: the groups of an input, and the trailer. -/
def Obligations.GroupsAndTrailer : Prop :=
  ∀ (w : Nat) (x : Bits), 2 ≤ w → w ≤ 64 →
    (partition (w - 1) x).length = ceilDiv x.length (w - 1) ∧
    (∀ j, j < ceilDiv x.length (w - 1) → (partition (w - 1) x)[j]? =
      some (slice (x ++ rep false (ceilDiv x.length (w - 1) * (w - 1) - x.length))
        (j * (w - 1)) ((j + 1) * (w - 1)))) ∧
    ceilDiv x.length (w - 1) * (w - 1) - x.length ≤ w - 2 ∧
    (x = [] → trailer w x.length = 0) ∧
    (x ≠ [] → trailer w x.length = x.length - (ceilDiv x.length (w - 1) - 1) * (w - 1) ∧
      1 ≤ trailer w x.length ∧ trailer w x.length ≤ w - 1)

/-! ## The builder -/

/-- Rule R91. -/
def Obligations.BsClearResult : Prop :=
  ∀ (s : State) (d : BufId), HasWord (.bsClear d) 0 (bufNumber d) 0 0 0 ∧
    ∃ t, exec (.bsClear d) s = .next t ∧ Succeeded 0 s t ∧ OnlyBuf d [] s t

/-- Rule R92. -/
def Obligations.BsLenResult : Prop :=
  ∀ (s : State) (b : BufId), s.Inv → HasWord (.bsLen b) 1 0 (bufNumber b) 0 0 ∧
    ∃ t, exec (.bsLen b) s = .next t ∧ Succeeded (s.buf b).length s t ∧ Untouched s t

/-- Rule R93. -/
def Obligations.BsGetResult : Prop :=
  ∀ (s : State) (b : BufId) (i : Operand), HasWord (.bsGet b i) 2 0 (bufNumber b) i.toNat 0 ∧
    ((s.buf b).length ≤ i.toNat →
      ∃ t, exec (.bsGet b i) s = .next t ∧ Failed .outOfRange i.toNat s t) ∧
    (∀ h : i.toNat < (s.buf b).length,
      ∃ t, exec (.bsGet b i) s = .next t ∧ Succeeded ((s.buf b)[i.toNat]).toNat s t ∧ Untouched s t)

/-- Rule R94. -/
def Obligations.BsAppendResult : Prop :=
  ∀ (s : State) (d : BufId) (bit : Operand),
    HasWord (.bsAppend d bit) 3 (bufNumber d) 0 bit.toNat 0 ∧
    (1 < bit.toNat → ∃ t, exec (.bsAppend d bit) s = .next t ∧ Failed .invalidParameter 0 s t) ∧
    (bit.toNat ≤ 1 → (s.buf d).length = s.cap →
      ∃ t, exec (.bsAppend d bit) s = .next t ∧ Failed .capacityExceeded 0 s t) ∧
    (bit.toNat ≤ 1 → (s.buf d).length ≠ s.cap →
      ∃ t, exec (.bsAppend d bit) s = .next t ∧ Succeeded 0 s t ∧
        OnlyBuf d (s.buf d ++ [decide (bit.toNat = 1)]) s t)

/-- Rule R95: the bounds' tests in order, and the copied range bit by bit. -/
def Obligations.BsSliceResult : Prop :=
  ∀ (s : State) (d b : BufId) (start stop : Operand),
    HasWord (.bsSlice d b start stop) 4 (bufNumber d) (bufNumber b) start.toNat stop.toNat ∧
    (d = b → ∃ t, exec (.bsSlice d b start stop) s = .next t ∧ Failed .invalidParameter 0 s t) ∧
    (d ≠ b → (s.buf b).length < stop.toNat →
      ∃ t, exec (.bsSlice d b start stop) s = .next t ∧ Failed .outOfRange stop.toNat s t) ∧
    (d ≠ b → stop.toNat ≤ (s.buf b).length → stop.toNat < start.toNat →
      ∃ t, exec (.bsSlice d b start stop) s = .next t ∧ Failed .outOfRange start.toNat s t) ∧
    (d ≠ b → stop.toNat ≤ (s.buf b).length → start.toNat ≤ stop.toNat →
      ∃ t q, exec (.bsSlice d b start stop) s = .next t ∧ Succeeded 0 s t ∧ OnlyBuf d q s t ∧
        q.length = stop.toNat - start.toNat ∧
        ∀ k, k < stop.toNat - start.toNat → q[k]? = (s.buf b)[start.toNat + k]?)

/-- Rule R96: bit `i` is the digit of weight `2^(7 - (i mod 8))` of `RAW[i div 8]`. -/
def Obligations.BsFromBytesResult : Prop :=
  ∀ (s : State) (d : BufId) (n : Operand),
    HasWord (.bsFromBytes d n) 5 (bufNumber d) 0 n.toNat 0 ∧
    (s.cap < n.toNat →
      ∃ t, exec (.bsFromBytes d n) s = .next t ∧ Failed .capacityExceeded 0 s t) ∧
    (n.toNat ≤ s.cap →
      ∃ t q, exec (.bsFromBytes d n) s = .next t ∧ Succeeded 0 s t ∧ OnlyBuf d q s t ∧
        q.length = n.toNat ∧
        ∀ i, i < n.toNat → q[i]? = some ((s.rawAt (i / 8)).getLsbD (7 - i % 8)))

/-- Rule R97: the bytes `0 .. m-1` hold the packed bits, unused digits 0; every other byte keeps its
value. -/
def Obligations.BsToBytesResult : Prop :=
  ∀ (s : State) (b : BufId), s.Inv → HasWord (.bsToBytes b) 6 0 (bufNumber b) 0 0 ∧
    ∃ t, exec (.bsToBytes b) s = .next t ∧ Succeeded (s.buf b).length s t ∧
      SameBufs s t ∧ t.errs = s.errs ∧ ceilDiv (s.buf b).length 8 ≤ ceilDiv s.cap 8 ∧
      (∀ a, ceilDiv (s.buf b).length 8 ≤ a → t.rawAt a = s.rawAt a) ∧
      (∀ a k, a < ceilDiv (s.buf b).length 8 → k < 8 →
        (t.rawAt a).getLsbD (7 - k) = ((s.buf b)[8 * a + k]?).getD false)

/-- Rule R98, law 1: a buffer cleared and built bit by bit holds those bits, and `BS_LEN` and `BS_GET`
say so. -/
def Obligations.AppendsBuild : Prop :=
  ∀ (s : State) (d : BufId) (q : Bits), s.Inv → q.length ≤ s.cap →
    ∃ t, execAll (bsLit d q) s = .next t ∧ OnlyBuf d q s t ∧
      (∃ u, exec (.bsLen d) t = .next u ∧ Succeeded q.length t u) ∧
      (∀ (k : Operand) (h : k.toNat < q.length),
        ∃ u, exec (.bsGet d k) t = .next u ∧ Succeeded (q[k.toNat]).toNat t u)

/-- Rule R98, laws 2 and 3: a whole slice copies; slices compose. -/
def Obligations.SlicesCompose : Prop :=
  (∀ (s : State) (d b : BufId) (n : Operand), d ≠ b → n.toNat = (s.buf b).length →
    ∃ t, exec (.bsSlice d b 0 n) s = .next t ∧ t.buf d = s.buf b) ∧
  (∀ (s t u v : State) (b d e g : BufId) (x y c z xc xz : Operand),
    exec (.bsSlice d b x y) s = .next t → Succeeded 0 s t →
    exec (.bsSlice e d c z) t = .next u → Succeeded 0 t u →
    exec (.bsSlice g b xc xz) s = .next v → Succeeded 0 s v →
    xc.toNat = x.toNat + c.toNat → xz.toNat = x.toNat + z.toNat → u.buf e = v.buf g)

/-- Rule R98, law 4: out to bytes and back. -/
def Obligations.BytesRoundTrip : Prop :=
  ∀ (s : State) (b d : BufId) (n : Operand), s.Inv → n.toNat = (s.buf b).length →
    ∃ t u, exec (.bsToBytes b) s = .next t ∧ exec (.bsFromBytes d n) t = .next u ∧
      u.buf d = s.buf b

/-! ## The system commands -/

/-- Rule R170. -/
def Obligations.RawWrResult : Prop :=
  ∀ (s : State) (addr byte : Operand), HasWord (.rawWr addr byte) 12 0 0 addr.toNat byte.toNat ∧
    (255 < byte.toNat → ∃ t, exec (.rawWr addr byte) s = .next t ∧ Failed .invalidParameter 0 s t) ∧
    (byte.toNat ≤ 255 → ceilDiv s.cap 8 ≤ addr.toNat →
      ∃ t, exec (.rawWr addr byte) s = .next t ∧ Failed .outOfRange addr.toNat s t) ∧
    (s.Inv → byte.toNat ≤ 255 → addr.toNat < ceilDiv s.cap 8 →
      ∃ t, exec (.rawWr addr byte) s = .next t ∧ Succeeded 0 s t ∧ SameBufs s t ∧
        t.errs = s.errs ∧ (t.rawAt addr.toNat).toNat = byte.toNat ∧
        ∀ a, a ≠ addr.toNat → t.rawAt a = s.rawAt a)

/-- Rule R171. -/
def Obligations.RawRdResult : Prop :=
  ∀ (s : State) (addr : Operand), HasWord (.rawRd addr) 13 0 0 addr.toNat 0 ∧
    (ceilDiv s.cap 8 ≤ addr.toNat →
      ∃ t, exec (.rawRd addr) s = .next t ∧ Failed .outOfRange addr.toNat s t) ∧
    (addr.toNat < ceilDiv s.cap 8 →
      ∃ t, exec (.rawRd addr) s = .next t ∧ Succeeded (s.rawAt addr.toNat).toNat s t ∧
        Untouched s t)

/-- Rule R172. -/
def Obligations.RdErrsResult : Prop :=
  ∀ s : State, HasWord .rdErrs 14 0 0 0 0 ∧
    (∃ t, exec .rdErrs s = .next t ∧ Succeeded s.errs.toNat s t ∧ Untouched s t) ∧
    (s.Inv → s.errs.toNat ≤ 30 ∧ s.errs.toNat % 2 = 0)

/-- Rule R173, and that a malformed `CLR_ERRS` word clears nothing and sets `INV`. -/
def Obligations.ClrErrsResult : Prop :=
  (∀ s : State, HasWord .clrErrs 15 0 0 0 0 ∧
    ∃ t, exec .clrErrs s = .next t ∧ Succeeded 0 s t ∧ SameBufs s t ∧ SameRaw s t ∧ t.errs = 0) ∧
  (∀ (s : State) (w : CmdWord), s.job = none → s.prog[s.pc]? = some w →
    w.extractLsb' 0 4 = 15#4 → w ≠ 15 → ∃ t, step s = .next t ∧ Failed .invalidParameter 0 s t)

/-- Rule R174: `op = 7` raises whatever its other fields hold. -/
def Obligations.ReservedCodeRaises : Prop :=
  ∀ (s : State) (d b : BufId) (a0 a1 : Operand),
    HasWord (.reservedOp7 d b a0 a1) 7 (bufNumber d) (bufNumber b) a0.toNat a1.toNat ∧
    ∃ t, exec (.reservedOp7 d b a0 a1) s = .next t ∧ Failed .invalidParameter 0 s t

/-! ## WAH -/

/-- Rule R125, the scan: a run of two or more fill-eligible groups, taken whole, becomes full fill words
and one for the remainder; any other group becomes a literal word.  The number of full words is given
in closed form, not by the encoder's loop. -/
def Obligations.WahEncoderScan : Prop :=
  ∀ w : Nat, 2 ≤ w → w ≤ 64 →
    (∀ x : Bits, wahEnc x w =
      (wahScan w (partition (w - 1) x).length (partition (w - 1) x), trailer w x.length)) ∧
    wahEnc [] w = ([], 0) ∧
    (∀ (v : Bool) (r : Nat) (rest : List Bits), 3 ≤ w → 2 ≤ r → rest.head? ≠ some (rep v (w - 1)) →
      wahScan w (r + rest.length) (List.replicate r (rep v (w - 1)) ++ rest) =
        (List.replicate ((r - 1) / (2 ^ (w - 2) - 1))
          ([true, v] ++ bitsN (w - 2) (2 ^ (w - 2) - 1))).flatten ++
        ([true, v] ++ bitsN (w - 2) (r - (r - 1) / (2 ^ (w - 2) - 1) * (2 ^ (w - 2) - 1))) ++
        wahScan w rest.length rest) ∧
    (∀ (g : Bits) (rest : List Bits),
      (w = 2 ∨ (g ≠ rep false (w - 1) ∧ g ≠ rep true (w - 1)) ∨ rest.head? ≠ some g) →
      wahScan w (rest.length + 1) (g :: rest) = (false :: g) ++ wahScan w rest.length rest) ∧
    wahScan w 0 [] = []

/-- Rule R115. -/
def Obligations.WahCompressResult : Prop :=
  ∀ (s : State) (d b : BufId) (w : Operand),
    HasWord (.wahCompress d b w) 8 (bufNumber d) (bufNumber b) w.toNat 0 ∧
    (d = b → ∃ t, exec (.wahCompress d b w) s = .next t ∧ Failed .invalidParameter 0 s t) ∧
    (d ≠ b → (w.toNat < 2 ∨ 64 < w.toNat) →
      ∃ t, exec (.wahCompress d b w) s = .next t ∧ Failed .invalidParameter 0 s t) ∧
    (d ≠ b → 2 ≤ w.toNat → w.toNat ≤ 64 → s.cap < (wahEnc (s.buf b) w.toNat).1.length →
      ∃ t, exec (.wahCompress d b w) s = .next t ∧ Failed .capacityExceeded 0 s t) ∧
    (d ≠ b → 2 ≤ w.toNat → w.toNat ≤ 64 → (wahEnc (s.buf b) w.toNat).1.length ≤ s.cap →
      ∃ t, exec (.wahCompress d b w) s = .next t ∧ Succeeded (wahEnc (s.buf b) w.toNat).2 s t ∧
        OnlyBuf d (wahEnc (s.buf b) w.toNat).1 s t)

/-- Rule R116, whole: what `wah_dec` answers, said of the words a stream is made of and not by a loop.
It answers bits exactly for a sequence of legal words with a trailer that fits, and those bits; it fails
exactly at the first bad word, or else at the end for a trailer that does not fit. -/
def Obligations.WahDecoderAnswers : Prop :=
  ∀ (w f : Nat) (c : Bits), 2 ≤ w → w ≤ 64 →
    (∀ (n : Nat) (y : Bits), wahDec c f w = .ok (n, y) ↔
      ∃ ws : List WahWord, (∀ u ∈ ws, wahLegal w u) ∧ c = ws.flatMap WahWord.bits ∧
        ((ws = [] ∧ f = 0 ∧ n = 0 ∧ y = []) ∨
         (ws ≠ [] ∧ 1 ≤ f ∧ f ≤ w - 1 ∧ n = ((ws.map wahGroups).sum - 1) * (w - 1) + f ∧
          y = (ws.flatMap wahEmits).take n))) ∧
    (∀ off : Nat, wahDec c f w = .malformed off ↔
      ∃ (ws : List WahWord) (rest : Bits), (∀ u ∈ ws, wahLegal w u) ∧
        c = ws.flatMap WahWord.bits ++ rest ∧
        ((rest ≠ [] ∧ off = (ws.flatMap WahWord.bits).length ∧
          (rest.length < w ∨ ∃ v tail, rest = [true, v] ++ rep false (w - 2) ++ tail)) ∨
         (rest = [] ∧ off = c.length ∧ (ws = [] → f ≠ 0) ∧ (ws ≠ [] → f < 1 ∨ w - 1 < f))))

/-- Rule R117. -/
def Obligations.WahDecompressResult : Prop :=
  ∀ (s : State) (d b : BufId) (w f : Operand),
    HasWord (.wahDecompress d b w f) 9 (bufNumber d) (bufNumber b) w.toNat f.toNat ∧
    (d = b → ∃ t, exec (.wahDecompress d b w f) s = .next t ∧ Failed .invalidParameter 0 s t) ∧
    (d ≠ b → (w.toNat < 2 ∨ 64 < w.toNat) →
      ∃ t, exec (.wahDecompress d b w f) s = .next t ∧ Failed .invalidParameter 0 s t) ∧
    (∀ off, s.Inv → d ≠ b → 2 ≤ w.toNat → w.toNat ≤ 64 →
      wahDec (s.buf b) f.toNat w.toNat = .malformed off →
      ∃ t, exec (.wahDecompress d b w f) s = .next t ∧ Failed .malformedStream off s t) ∧
    (∀ n y, d ≠ b → 2 ≤ w.toNat → w.toNat ≤ 64 →
      wahDec (s.buf b) f.toNat w.toNat = .ok (n, y) → s.cap < n →
      ∃ t, exec (.wahDecompress d b w f) s = .next t ∧ Failed .capacityExceeded 0 s t) ∧
    (∀ n y, d ≠ b → 2 ≤ w.toNat → w.toNat ≤ 64 →
      wahDec (s.buf b) f.toNat w.toNat = .ok (n, y) → n ≤ s.cap →
      ∃ t, exec (.wahDecompress d b w f) s = .next t ∧ Succeeded 0 s t ∧ OnlyBuf d y s t ∧
        y.length = n)

/-- Rule R123: the WAH round trip, of the functions and of the commands. -/
def Obligations.WahRoundTrip : Prop :=
  (∀ (x : Bits) (w : Nat), 2 ≤ w → w ≤ 64 →
    wahDec (wahEnc x w).1 (wahEnc x w).2 w = .ok (x.length, x)) ∧
  (∀ (s t : State) (r : Response) (d b e : BufId) (w : Operand), s.Inv → e ≠ d →
    exec (.wahCompress d b w) s = .next t → t.rsp = some r → r.status = 0 →
    ∃ u, exec (.wahDecompress e d w r.res) t = .next u ∧ Succeeded 0 t u ∧ u.buf e = s.buf b)

/-- Rule R121: no group costs more than one word, and an input whose groups are a single run costs
`W * ceil_div(r, M)` bits, a zero run whose last group is short (R112) among them. -/
def Obligations.WahSize : Prop :=
  ∀ w : Nat, 2 ≤ w → w ≤ 64 →
    (∀ x : Bits, (wahEnc x w).1.length ≤ w * ceilDiv x.length (w - 1) ∧
      w ∣ (wahEnc x w).1.length) ∧
    (∀ (v : Bool) (r : Nat) (x : Bits), 3 ≤ w → 2 ≤ r →
      partition (w - 1) x = List.replicate r (rep v (w - 1)) →
      (wahEnc x w).1.length = w * ceilDiv r (2 ^ (w - 2) - 1))

/-- Rule R119: at `W = 2` every bit `b` becomes the word `0b`, and a word with marker 1 is malformed. -/
def Obligations.WahWordSizeTwo : Prop :=
  (∀ x : Bits, wahEnc x 2 = (x.flatMap (fun b => [false, b]), if x = [] then 0 else 1)) ∧
  (∀ x : Bits, x ≠ [] → wahDec (x.flatMap fun b => [false, b]) 1 2 = .ok (x.length, x)) ∧
  (∀ (x rest : Bits) (v : Bool) (f : Nat),
    wahDec ((x.flatMap fun b => [false, b]) ++ [true, v] ++ rest) f 2 = .malformed (2 * x.length))

/-- Rule R120: at `W = 3` a run of `r >= 2` groups becomes `r` fill words with counter 1. -/
def Obligations.WahWordSizeThree : Prop :=
  ∀ (v : Bool) (r : Nat) (rest : List Bits), 2 ≤ r → rest.head? ≠ some [v, v] →
    wahScan 3 (r + rest.length) (List.replicate r [v, v] ++ rest) =
      (List.replicate r [true, v, true]).flatten ++ wahScan 3 rest.length rest

/-! ## BBC -/

/-- Rule R143: the class of every byte, and the index of a single-bit byte. -/
def Obligations.ByteClasses : Prop :=
  ∀ y : Byte, (classOf y = .zero ↔ y = 0x00) ∧ (classOf y = .one ↔ y = 0xFF) ∧
    (∀ i, classOf y = .singleSet i ↔ y.toNat = 2 ^ (7 - i.toNat)) ∧
    (∀ i, classOf y = .singleClear i ↔ y.toNat = 255 - 2 ^ (7 - i.toNat)) ∧
    (classOf y = .literal ↔ y ≠ 0x00 ∧ y ≠ 0xFF ∧ ∀ i : BitVec 3,
      y.toNat ≠ 2 ^ (7 - i.toNat) ∧ y.toNat ≠ 255 - 2 ^ (7 - i.toNat))

/-- Rule R153, the scan: a run of `0x00` or `0xFF` bytes, taken whole, becomes full run records and one for
the remainder; any other byte becomes its own record.  The number of full records is given in closed
form, not by the encoder's loop. -/
def Obligations.BbcEncoderScan : Prop :=
  (∀ x : Bits, bbcEnc x = (bbcScan (pack x).length (pack x), x.length)) ∧ bbcEnc [] = ([], 0) ∧
  (∀ (v : Bool) (r : Nat) (rest : List Byte), 1 ≤ r →
    rest.head? ≠ some (if v then 0xFF else 0x00) →
    bbcScan (r + rest.length) (List.replicate r (if v then 0xFF else 0x00) ++ rest) =
      (List.replicate ((r - 1) / 255) ([false, false, v] ++ bitsN 8 255)).flatten ++
      ([false, false, v] ++ bitsN 8 (r - (r - 1) / 255 * 255)) ++ bbcScan rest.length rest) ∧
  (∀ (i : BitVec 3) (rest : List Byte),
    bbcScan (rest.length + 1) (BitVec.ofNat 8 (2 ^ (7 - i.toNat)) :: rest) =
      [false, true, false] ++ bitsN 3 i.toNat ++ bbcScan rest.length rest) ∧
  (∀ (i : BitVec 3) (rest : List Byte),
    bbcScan (rest.length + 1) (BitVec.ofNat 8 (255 - 2 ^ (7 - i.toNat)) :: rest) =
      [false, true, true] ++ bitsN 3 i.toNat ++ bbcScan rest.length rest) ∧
  (∀ (y : Byte) (rest : List Byte), classOf y = .literal →
    bbcScan (rest.length + 1) (y :: rest) =
      [true, false, false] ++ bitsN 8 y.toNat ++ bbcScan rest.length rest) ∧
  bbcScan 0 [] = []

/-- Rule R144. -/
def Obligations.BbcCompressResult : Prop :=
  ∀ (s : State) (d b : BufId), s.Inv →
    HasWord (.bbcCompress d b) 10 (bufNumber d) (bufNumber b) 0 0 ∧
    (d = b → ∃ t, exec (.bbcCompress d b) s = .next t ∧ Failed .invalidParameter 0 s t) ∧
    (d ≠ b → s.cap < (bbcEnc (s.buf b)).1.length →
      ∃ t, exec (.bbcCompress d b) s = .next t ∧ Failed .capacityExceeded 0 s t) ∧
    (d ≠ b → (bbcEnc (s.buf b)).1.length ≤ s.cap →
      ∃ t, exec (.bbcCompress d b) s = .next t ∧ Succeeded (s.buf b).length s t ∧
        OnlyBuf d (bbcEnc (s.buf b)).1 s t)

/-- Rule R145, whole: what `bbc_dec` answers, said of the records a stream is made of and not by a loop.
It answers bits exactly for a sequence of legal records whose bytes are as many as the length asks, and
then `unpack` of those bytes; it fails exactly at the first bad record, or else at the end. -/
def Obligations.BbcDecoderAnswers : Prop :=
  ∀ (n : Nat) (c : Bits),
    (∀ (m : Nat) (y : Bits), bbcDec c n = .ok (m, y) ↔
      ∃ rs : List BbcRecord, (∀ r ∈ rs, bbcLegal r) ∧ c = rs.flatMap BbcRecord.bits ∧
        (rs.flatMap bbcBytes).length = ceilDiv n 8 ∧ m = n ∧ y = unpack (rs.flatMap bbcBytes) n) ∧
    (∀ off : Nat, bbcDec c n = .malformed off ↔
      ∃ (rs : List BbcRecord) (rest : Bits), (∀ r ∈ rs, bbcLegal r) ∧
        c = rs.flatMap BbcRecord.bits ++ rest ∧
        ((rest ≠ [] ∧ off = (rs.flatMap BbcRecord.bits).length ∧
          (rest.length < 3 ∨
           (3 ≤ rest.length ∧ 5 ≤ val (rest.take 3)) ∨
           (rest.length < 11 ∧ 3 ≤ rest.length ∧ val (rest.take 3) ∈ [0, 1, 4]) ∨
           (rest.length < 6 ∧ 3 ≤ rest.length ∧ val (rest.take 3) ∈ [2, 3]) ∨
           (11 ≤ rest.length ∧ val (rest.take 3) ∈ [0, 1] ∧ val (slice rest 3 11) = 0))) ∨
         (rest = [] ∧ off = c.length ∧ (rs.flatMap bbcBytes).length ≠ ceilDiv n 8)))

/-- Rule R147. -/
def Obligations.BbcDecompressResult : Prop :=
  ∀ (s : State) (d b : BufId) (n : Operand),
    HasWord (.bbcDecompress d b n) 11 (bufNumber d) (bufNumber b) n.toNat 0 ∧
    (d = b → ∃ t, exec (.bbcDecompress d b n) s = .next t ∧ Failed .invalidParameter 0 s t) ∧
    (∀ off, s.Inv → d ≠ b → bbcDec (s.buf b) n.toNat = .malformed off →
      ∃ t, exec (.bbcDecompress d b n) s = .next t ∧ Failed .malformedStream off s t) ∧
    (∀ m y, d ≠ b → bbcDec (s.buf b) n.toNat = .ok (m, y) → s.cap < n.toNat →
      ∃ t, exec (.bbcDecompress d b n) s = .next t ∧ Failed .capacityExceeded 0 s t) ∧
    (∀ m y, d ≠ b → bbcDec (s.buf b) n.toNat = .ok (m, y) → n.toNat ≤ s.cap →
      ∃ t, exec (.bbcDecompress d b n) s = .next t ∧ Succeeded 0 s t ∧ OnlyBuf d y s t ∧
        y.length = n.toNat)

/-- Rule R151: the BBC round trip, of the functions and of the commands. -/
def Obligations.BbcRoundTrip : Prop :=
  (∀ x : Bits, (bbcEnc x).2 = x.length ∧ bbcDec (bbcEnc x).1 (bbcEnc x).2 = .ok (x.length, x)) ∧
  (∀ (s t : State) (r : Response) (d b e : BufId), s.Inv → e ≠ d →
    exec (.bbcCompress d b) s = .next t → t.rsp = some r → r.status = 0 →
    ∃ u, exec (.bbcDecompress e d r.res) t = .next u ∧ Succeeded 0 t u ∧ u.buf e = s.buf b)

/-- Rule R149: no byte costs more than 11 bits, and an input whose bytes are a single run costs
`11 * ceil_div(r, 255)`, a zero run whose last byte is short (R141) among them. -/
def Obligations.BbcSize : Prop :=
  (∀ x : Bits, (bbcEnc x).1.length ≤ 11 * ceilDiv x.length 8) ∧
  (∀ (v : Bool) (r : Nat) (x : Bits), 1 ≤ r →
    pack x = List.replicate r (if v then 0xFF else 0x00) →
    (bbcEnc x).1.length = 11 * ceilDiv r 255)

/-! ## The units of the streams -/

/-- What a WAH word does to the decoder that reads it: a literal emits its payload, a fill word its
groups; a counter of 0 ends the command as malformed at the word's first bit.  What a word emits and
where it fails are R116's.  That a word is an instruction of its own, acting on a decoder held in `job`
while `pc` and `rsp` stand, is the model's finer view (DESIGN CHOICE, notes/assumptions/2.md). -/
def Obligations.WahWordsAct : Prop :=
  (∀ (s : State) (j : Job) (p : Bits) (f : Nat), s.job = some j → j.codec = .wah (p.length + 1) f →
    ∃ t sc, exec (.wahLiteral p) s = .next t ∧ Scanned j sc s t ∧
      sc.pos = j.scan.pos + (p.length + 1) ∧ sc.units = j.scan.units + 1 ∧
      sc.bits = j.scan.bits ++ p) ∧
  (∀ (s : State) (j : Job) (w f n : Nat) (v : Bool), s.job = some j → j.codec = .wah w f → 1 ≤ n →
    ∃ t sc, exec (.wahFill w v n) s = .next t ∧ Scanned j sc s t ∧
      sc.pos = j.scan.pos + w ∧ sc.units = j.scan.units + n ∧
      sc.bits = j.scan.bits ++ rep v (n * (w - 1))) ∧
  (∀ (s : State) (j : Job) (w f : Nat) (v : Bool), s.job = some j → j.codec = .wah w f →
    j.scan.pos < 2 ^ 64 →
    ∃ t, exec (.wahFill w v 0) s = .next t ∧ Failed .malformedStream j.scan.pos s t)

/-- What a BBC record does to the decoder that reads it: it emits its bytes; a run length of 0 ends the
command as malformed at the record's first bit.  What a record emits and where it fails are R145's.
That a record is an instruction of its own, acting on a decoder held in `job` while `pc` and `rsp`
stand, is the model's finer view (DESIGN CHOICE, notes/assumptions/2.md). -/
def Obligations.BbcRecordsAct : Prop :=
  (∀ (s : State) (j : Job) (m : Nat) (u : BbcRecord), s.job = some j → j.codec = .bbc m → bbcLegal u →
    ∃ t sc, exec u.toInstr s = .next t ∧ Scanned j sc s t ∧
      sc.pos = j.scan.pos + u.bits.length ∧ sc.units = j.scan.units + (bbcBytes u).length ∧
      sc.bits = j.scan.bits ++ (bbcBytes u).flatMap bitsOfByte) ∧
  (∀ (s : State) (j : Job) (m : Nat) (i : Instr), s.job = some j → j.codec = .bbc m →
    j.scan.pos < 2 ^ 64 → (i = .bbcZeroRun 0 ∨ i = .bbcOneRun 0) →
    ∃ t, exec i s = .next t ∧ Failed .malformedStream j.scan.pos s t)

/-- The reserved tags: each ends the command as malformed at its first bit (R76).  That a reserved tag is
an instruction of its own, acting on a decoder held in `job`, is the model's finer view (DESIGN CHOICE,
notes/assumptions/2.md). -/
def Obligations.ReservedTagsAreMalformed : Prop :=
  ∀ (s : State) (j : Job) (m : Nat) (i : Instr), s.job = some j → j.codec = .bbc m →
    j.scan.pos < 2 ^ 64 → (i = .bbcReserved101 ∨ i = .bbcReserved110 ∨ i = .bbcReserved111) →
    ∃ t, exec i s = .next t ∧ Failed .malformedStream j.scan.pos s t

/-- The model's two views of a decompress command agree.  The command is one step of the machine (R46).
The run of its stream's units, one a step under a decoder held in `job`, is the model's finer view
(DESIGN CHOICE, notes/assumptions/2.md); begun where the command begins, it reaches the very state the
command answers. -/
def Obligations.DecompressIsItsUnits : Prop :=
  (∀ (s : State) (d b : BufId) (w f : Operand), s.job = none → d ≠ b → 2 ≤ w.toNat → w.toNat ≤ 64 →
    ∃ k t, exec (.wahDecompress d b w f) s = .next t ∧
      core.run k { s with job := some ⟨.wah w.toNat f.toNat, d, s.buf b, Scan.start⟩ } = .next t) ∧
  (∀ (s : State) (d b : BufId) (n : Operand), s.job = none → d ≠ b →
    ∃ k t, exec (.bbcDecompress d b n) s = .next t ∧
      core.run k { s with job := some ⟨.bbc n.toNat, d, s.buf b, Scan.start⟩ } = .next t)
end

