-- ==== Sys2Proof/Laws/Bits.lean ====
section
/-! SUPPORT. Small facts of the bit-sequence primitives. -/

namespace Sys2Proof

@[simp] theorem length_rep (v : Bool) (k : Nat) : (rep v k).length = k := by simp [rep]

@[simp] theorem rep_zero (v : Bool) : rep v 0 = [] := rfl

theorem rep_add (v : Bool) (a b : Nat) : rep v (a + b) = rep v a ++ rep v b := by
  simp [rep]

@[simp] theorem bitsN_zero (v : Nat) : bitsN 0 v = [] := rfl

@[simp] theorem bitsN_succ (n v : Nat) : bitsN (n + 1) v = v.testBit n :: bitsN n v := rfl

@[simp] theorem length_bitsN (n v : Nat) : (bitsN n v).length = n := by
  induction n with
  | zero => rfl
  | succ n ih => simp [ih]

@[simp] theorem val_nil : val [] = 0 := rfl

@[simp] theorem val_cons (b : Bool) (q : Bits) :
    val (b :: q) = b.toNat * 2 ^ q.length + val q := rfl

theorem val_lt (q : Bits) : val q < 2 ^ q.length := by
  induction q with
  | nil => simp
  | cons b q ih =>
    rw [val_cons, List.length_cons, Nat.pow_succ]
    cases b <;> simp <;> omega

@[simp] theorem length_padUnit (u : Nat) (q : Bits) (h : q.length ≤ u) :
    (padUnit u q).length = u := by
  simp [padUnit]; omega

@[simp] theorem length_unitsOf (u k : Nat) (q : Bits) : (unitsOf u k q).length = k := by
  induction k generalizing q with
  | zero => rfl
  | succ k ih => simp [unitsOf, ih]

@[simp] theorem length_partition (u : Nat) (q : Bits) :
    (partition u q).length = ceilDiv q.length u := by
  simp [partition]

/-- Every unit of a partition has the unit's size. -/
theorem length_of_mem_unitsOf (u k : Nat) (q g : Bits) (h : g ∈ unitsOf u k q) : g.length = u := by
  induction k generalizing q with
  | zero => simp [unitsOf] at h
  | succ k ih =>
    simp only [unitsOf, List.mem_cons] at h
    obtain rfl | h := h
    · exact length_padUnit _ _ (by simp)
    · exact ih _ h

@[simp] theorem length_pack (q : Bits) : (pack q).length = ceilDiv q.length 8 := by simp [pack]

theorem ceilDiv_zero (b : Nat) (h : 1 ≤ b) : ceilDiv 0 b = 0 := by
  simp [ceilDiv]; omega

/-- `ceil_div(a, b)` is the least integer not below `a / b` (rule R9). -/
theorem ceilDiv_le_iff (a b k : Nat) (h : 1 ≤ b) : ceilDiv a b ≤ k ↔ a ≤ k * b := by
  unfold ceilDiv
  rw [← Nat.lt_succ_iff, Nat.div_lt_iff_lt_mul (by omega), Nat.succ_mul]
  omega

end Sys2Proof
end

