-- ==== Sys2Proof/Laws/Memory.lean ====
section
/-! SUPPORT. The laws of `RAW`: a read after a write, and that every write keeps the canonical form. -/

namespace Sys2Proof.Machine.Memory

/-- Reading one address after writing another gives what was there. -/
theorem read_write_other (m : List Host.Cell) (a a' : Nat) (y : Byte) (h : a' ≠ a) :
    read (write m a y) a' = read m a' := by
  induction m with
  | nil =>
    simp only [write]
    split <;> simp [read, Ne.symm h]
  | cons c m ih =>
    simp only [write]
    split
    · split <;> simp [read, Ne.symm h]
    · split
      · next heq =>
        split <;> simp [read, heq, Ne.symm h]
      · simp [read, ih]

/-- An address below every listed one reads as 0. -/
theorem read_below (m : List Host.Cell) (a : Nat) (h : m.all (fun c => a < c.1) = true) :
    read m a = 0 := by
  induction m with
  | nil => rfl
  | cons c m ih =>
    simp only [List.all_cons, Bool.and_eq_true, decide_eq_true_eq] at h
    simp [read, show c.1 ≠ a by omega, ih h.2]

/-- What `wf` says of a non-empty list. -/
theorem wf_cons (c : Host.Cell) (m : List Host.Cell) :
    wf (c :: m) = true ↔ c.2 ≠ 0 ∧ (∀ c' ∈ m, c.1 < c'.1) ∧ wf m = true := by
  simp [wf, and_assoc]

/-- Reading the address just written gives the byte written, on a canonical list. -/
theorem read_write_same (m : List Host.Cell) (a : Nat) (y : Byte) (h : wf m = true) :
    read (write m a y) a = y := by
  induction m with
  | nil =>
    simp only [write]
    split <;> simp_all [read]
  | cons c m ih =>
    obtain ⟨-, hlt, hm⟩ := (wf_cons c m).mp h
    simp only [write]
    split
    · next hac =>
      split
      · next hy =>
        rw [hy]
        apply read_below
        simp only [List.all_eq_true, decide_eq_true_eq, List.mem_cons]
        rintro c' (rfl | hc')
        · exact hac
        · exact lt_trans hac (hlt c' hc')
      · simp [read]
    · split
      · next heq =>
        split
        · next hy =>
          rw [hy]
          apply read_below
          simpa [heq] using hlt
        · simp [read]
      · next hne => simp [read, hne, ih hm]

/-- An address the list after a write holds is the written one or was there. -/
theorem mem_write (m : List Host.Cell) (a : Nat) (y : Byte) (c : Host.Cell)
    (h : c ∈ write m a y) : c.1 = a ∨ c ∈ m := by
  induction m with
  | nil =>
    simp only [write] at h
    split at h <;> simp_all
  | cons d m ih =>
    simp only [write] at h
    split at h
    · split at h <;> simp_all
      rcases h with rfl | h | h <;> simp_all
    · split at h
      · split at h <;> simp_all
        rcases h with rfl | h <;> simp_all
      · simp only [List.mem_cons] at h ⊢
        rcases h with rfl | h
        · simp
        · rcases ih h with h | h <;> simp [h]

/-- A write keeps the canonical form. -/
theorem wf_write (m : List Host.Cell) (a : Nat) (y : Byte) (h : wf m = true) :
    wf (write m a y) = true := by
  induction m with
  | nil =>
    simp only [write]
    split <;> simp_all [wf]
  | cons c m ih =>
    obtain ⟨hc, hlt, hm⟩ := (wf_cons c m).mp h
    simp only [write]
    split
    · next hac =>
      split
      · exact h
      · next hy =>
        refine (wf_cons _ _).mpr ⟨hy, ?_, h⟩
        intro c' hc'
        rcases List.mem_cons.mp hc' with rfl | hc'
        · exact hac
        · exact lt_trans hac (hlt c' hc')
    · split
      · next heq =>
        split
        · exact hm
        · next hy => exact (wf_cons _ _).mpr ⟨hy, by simpa [heq] using hlt, hm⟩
      · next hlt' hne =>
        refine (wf_cons _ _).mpr ⟨hc, ?_, ih hm⟩
        intro c' hc'
        rcases mem_write m a y c' hc' with h' | h'
        · omega
        · exact hlt c' h'

/-- A run of writes keeps the canonical form. -/
theorem wf_writeN (m : List Host.Cell) (a : Nat) (ys : List Byte) (h : wf m = true) :
    wf (writeN m a ys) = true := by
  induction ys generalizing m a with
  | nil => exact h
  | cons y ys ih => exact ih _ _ (wf_write m a y h)

/-- A run of writes leaves every address outside it alone. -/
theorem read_writeN_outside (m : List Host.Cell) (a a' : Nat) (ys : List Byte)
    (h : a' < a ∨ a + ys.length ≤ a') : read (writeN m a ys) a' = read m a' := by
  induction ys generalizing m a with
  | nil => rfl
  | cons y ys ih =>
    simp only [List.length_cons] at h
    rw [writeN, ih _ _ (by omega), read_write_other _ _ _ _ (by omega)]

/-- A run of writes leaves each of its bytes where it was put, on a canonical list. -/
theorem read_writeN_inside (m : List Host.Cell) (a k : Nat) (ys : List Byte) (h : wf m = true)
    (hk : k < ys.length) : read (writeN m a ys) (a + k) = ys[k] := by
  induction ys generalizing m a k with
  | nil => simp at hk
  | cons y ys ih =>
    cases k with
    | zero =>
      rw [writeN, read_writeN_outside _ _ _ _ (by omega)]
      simpa using read_write_same m a y h
    | succ k =>
      have := ih (write m a y) (a + 1) k (wf_write m a y h) (by simpa using hk)
      simpa [writeN, Nat.add_assoc, Nat.add_comm 1 k] using this

@[simp] theorem length_readN (m : List Host.Cell) (a n : Nat) : (readN m a n).length = n := by
  induction n generalizing a with
  | zero => rfl
  | succ n ih => simp [readN, ih]

/-- Byte `k` of a run of reads. -/
theorem getElem_readN (m : List Host.Cell) (a n k : Nat) (h : k < (readN m a n).length) :
    (readN m a n)[k] = read m (a + k) := by
  induction n generalizing a k with
  | zero => simp [readN] at h
  | succ n ih =>
    cases k with
    | zero => simp [readN]
    | succ k => simp [readN, ih, Nat.add_assoc, Nat.add_comm 1 k]

end Sys2Proof.Machine.Memory
end

