-- ==== Sys2Proof/Laws/State.lean ====
section
/-! SUPPORT. One lemma per field per update of the state, and what each named operation over the state
does. -/

namespace Sys2Proof.Machine.State

/-! ## Reset -/

@[simp] theorem resetWith_buf (cap : Nat) (b : BufId) : (resetWith cap).buf b = [] := by
  cases b <;> rfl
@[simp] theorem resetWith_raw (cap : Nat) : (resetWith cap).raw = [] := rfl
@[simp] theorem resetWith_errs (cap : Nat) : (resetWith cap).errs = 0 := rfl
@[simp] theorem resetWith_pc (cap : Nat) : (resetWith cap).pc = 0 := rfl
@[simp] theorem resetWith_prog (cap : Nat) : (resetWith cap).prog = [] := rfl
@[simp] theorem resetWith_rsp (cap : Nat) : (resetWith cap).rsp = none := rfl
@[simp] theorem resetWith_job (cap : Nat) : (resetWith cap).job = none := rfl
@[simp] theorem resetWith_cap (cap : Nat) : (resetWith cap).cap = cap := rfl
@[simp] theorem resetWith_rawAt (cap a : Nat) : (resetWith cap).rawAt a = 0 := rfl

/-! ## Buffers -/

@[simp] theorem buf_setBuf_same (s : State) (d : BufId) (q : Bits) : (s.setBuf d q).buf d = q := by
  cases d <;> rfl

theorem buf_setBuf_other (s : State) (d b : BufId) (q : Bits) (h : b ≠ d) :
    (s.setBuf d q).buf b = s.buf b := by
  cases d <;> cases b <;> first | rfl | exact absurd rfl h

@[simp] theorem setBuf_raw (s : State) (d : BufId) (q : Bits) : (s.setBuf d q).raw = s.raw := by
  cases d <;> rfl
@[simp] theorem setBuf_errs (s : State) (d : BufId) (q : Bits) : (s.setBuf d q).errs = s.errs := by
  cases d <;> rfl
@[simp] theorem setBuf_pc (s : State) (d : BufId) (q : Bits) : (s.setBuf d q).pc = s.pc := by
  cases d <;> rfl
@[simp] theorem setBuf_prog (s : State) (d : BufId) (q : Bits) : (s.setBuf d q).prog = s.prog := by
  cases d <;> rfl
@[simp] theorem setBuf_rsp (s : State) (d : BufId) (q : Bits) : (s.setBuf d q).rsp = s.rsp := by
  cases d <;> rfl
@[simp] theorem setBuf_job (s : State) (d : BufId) (q : Bits) : (s.setBuf d q).job = s.job := by
  cases d <;> rfl
@[simp] theorem setBuf_cap (s : State) (d : BufId) (q : Bits) : (s.setBuf d q).cap = s.cap := by
  cases d <;> rfl

/-! ## `RAW` -/

@[simp] theorem setRaw_buf (s : State) (m : List Host.Cell) (b : BufId) :
    (s.setRaw m).buf b = s.buf b := by cases b <;> rfl
@[simp] theorem setRaw_raw (s : State) (m : List Host.Cell) : (s.setRaw m).raw = m := rfl
@[simp] theorem setRaw_errs (s : State) (m : List Host.Cell) : (s.setRaw m).errs = s.errs := rfl
@[simp] theorem setRaw_pc (s : State) (m : List Host.Cell) : (s.setRaw m).pc = s.pc := rfl
@[simp] theorem setRaw_prog (s : State) (m : List Host.Cell) : (s.setRaw m).prog = s.prog := rfl
@[simp] theorem setRaw_rsp (s : State) (m : List Host.Cell) : (s.setRaw m).rsp = s.rsp := rfl
@[simp] theorem setRaw_job (s : State) (m : List Host.Cell) : (s.setRaw m).job = s.job := rfl
@[simp] theorem setRaw_cap (s : State) (m : List Host.Cell) : (s.setRaw m).cap = s.cap := rfl

/-! ## `ERRS` -/

@[simp] theorem setErrs_buf (s : State) (e : BitVec 5) (b : BufId) :
    (s.setErrs e).buf b = s.buf b := by cases b <;> rfl
@[simp] theorem setErrs_raw (s : State) (e : BitVec 5) : (s.setErrs e).raw = s.raw := rfl
@[simp] theorem setErrs_errs (s : State) (e : BitVec 5) : (s.setErrs e).errs = e := rfl
@[simp] theorem setErrs_pc (s : State) (e : BitVec 5) : (s.setErrs e).pc = s.pc := rfl
@[simp] theorem setErrs_prog (s : State) (e : BitVec 5) : (s.setErrs e).prog = s.prog := rfl
@[simp] theorem setErrs_rsp (s : State) (e : BitVec 5) : (s.setErrs e).rsp = s.rsp := rfl
@[simp] theorem setErrs_job (s : State) (e : BitVec 5) : (s.setErrs e).job = s.job := rfl
@[simp] theorem setErrs_cap (s : State) (e : BitVec 5) : (s.setErrs e).cap = s.cap := rfl

/-! ## The end of a command -/

@[simp] theorem answer_buf (s : State) (r : Response) (b : BufId) :
    (s.answer r).buf b = s.buf b := by cases b <;> rfl
@[simp] theorem answer_raw (s : State) (r : Response) : (s.answer r).raw = s.raw := rfl
@[simp] theorem answer_errs (s : State) (r : Response) : (s.answer r).errs = s.errs := rfl
@[simp] theorem answer_pc (s : State) (r : Response) : (s.answer r).pc = s.pc + 1 := rfl
@[simp] theorem answer_prog (s : State) (r : Response) : (s.answer r).prog = s.prog := rfl
@[simp] theorem answer_rsp (s : State) (r : Response) : (s.answer r).rsp = some r := rfl
@[simp] theorem answer_job (s : State) (r : Response) : (s.answer r).job = none := rfl
@[simp] theorem answer_cap (s : State) (r : Response) : (s.answer r).cap = s.cap := rfl

@[simp] theorem succeed_buf (s : State) (n : Nat) (b : BufId) : (s.succeed n).buf b = s.buf b := by
  simp [succeed]
@[simp] theorem succeed_raw (s : State) (n : Nat) : (s.succeed n).raw = s.raw := rfl
@[simp] theorem succeed_errs (s : State) (n : Nat) : (s.succeed n).errs = s.errs := rfl
@[simp] theorem succeed_pc (s : State) (n : Nat) : (s.succeed n).pc = s.pc + 1 := rfl
@[simp] theorem succeed_prog (s : State) (n : Nat) : (s.succeed n).prog = s.prog := rfl
@[simp] theorem succeed_rsp (s : State) (n : Nat) :
    (s.succeed n).rsp = some ⟨0, BitVec.ofNat 64 n, 0⟩ := rfl
@[simp] theorem succeed_job (s : State) (n : Nat) : (s.succeed n).job = none := rfl
@[simp] theorem succeed_cap (s : State) (n : Nat) : (s.succeed n).cap = s.cap := rfl

@[simp] theorem raise_buf (s : State) (e : ErrorKind) (o : Nat) (b : BufId) :
    (s.raise e o).buf b = s.buf b := by simp [raise]
@[simp] theorem raise_raw (s : State) (e : ErrorKind) (o : Nat) : (s.raise e o).raw = s.raw := rfl
@[simp] theorem raise_errs (s : State) (e : ErrorKind) (o : Nat) :
    (s.raise e o).errs = errsWith s.errs e := rfl
@[simp] theorem raise_pc (s : State) (e : ErrorKind) (o : Nat) : (s.raise e o).pc = s.pc + 1 := rfl
@[simp] theorem raise_prog (s : State) (e : ErrorKind) (o : Nat) : (s.raise e o).prog = s.prog := rfl
@[simp] theorem raise_rsp (s : State) (e : ErrorKind) (o : Nat) :
    (s.raise e o).rsp = some ⟨BitVec.ofNat 3 e.code, 0, BitVec.ofNat 64 o⟩ := rfl
@[simp] theorem raise_job (s : State) (e : ErrorKind) (o : Nat) : (s.raise e o).job = none := rfl
@[simp] theorem raise_cap (s : State) (e : ErrorKind) (o : Nat) : (s.raise e o).cap = s.cap := rfl

/-- Two states with the same fields are the same, the buffers seen through `buf`. -/
theorem ext_buf (s t : State) (hb : ∀ b, s.buf b = t.buf b) (hr : s.raw = t.raw)
    (he : s.errs = t.errs) (hp : s.pc = t.pc) (hg : s.prog = t.prog) (ho : s.rsp = t.rsp)
    (hj : s.job = t.job) (hc : s.cap = t.cap) : s = t := by
  cases s
  cases t
  have h0 := hb .b0
  have h1 := hb .b1
  have h2 := hb .b2
  have h3 := hb .b3
  simp only [buf] at h0 h1 h2 h3
  simp_all

end Sys2Proof.Machine.State
end

