-- ==== Sys2Proof/Laws/Ops.lean ====
section
/-! SUPPORT. What the shared operations do, each said once, in the words claims are stated in. -/

namespace Sys2Proof.Machine

/-- Setting the bit of an error sets that bit and no other. -/
theorem errsWith_getLsbD (errs : BitVec 5) (e : ErrorKind) (k : Nat) (h : k < 5) :
    (errsWith errs e).getLsbD k = (errs.getLsbD k || k == e.code) := by
  have : k = 0 ∨ k = 1 ∨ k = 2 ∨ k = 3 ∨ k = 4 := by omega
  cases e <;> rcases this with rfl | rfl | rfl | rfl | rfl <;>
    simp [errsWith, ErrorKind.code]

/-- An error code is 1 to 4: no error sets bit 0 of `ERRS`. -/
theorem ErrorKind.code_bounds (e : ErrorKind) : 1 ≤ e.code ∧ e.code ≤ 4 := by
  cases e <;> simp [ErrorKind.code]

/-- An error code fits the status field. -/
@[simp] theorem ErrorKind.code_mod (e : ErrorKind) : e.code % 8 = e.code :=
  Nat.mod_eq_of_lt (by have := e.code_bounds; omega)

/-- `raise` is how a command fails (rule R190). -/
theorem failed_raise (s : State) (e : ErrorKind) (off : Nat) (h : off < 2 ^ 64) :
    Failed e off s (s.raise e off) := by
  refine ⟨_, ⟨s.raise_rsp e off, by simp, by simp, by simp, by simp⟩, ?_, rfl, ?_, ?_, ?_, ?_⟩
  · simp
  · simpa using h
  · intro b; simp
  · intro a; simp [State.rawAt]
  · intro k hk; simpa using errsWith_getLsbD s.errs e k hk

/-- `succeed` is how a command succeeds. -/
theorem succeeded_succeed (s : State) (res : Nat) (h : res < 2 ^ 64) :
    Succeeded res s (s.succeed res) :=
  ⟨_, ⟨s.succeed_rsp res, by simp, by simp, by simp, by simp⟩, rfl, by simpa using h, rfl⟩

/-- A successful command that commits nothing leaves everything alone. -/
theorem untouched_succeed (s : State) (res : Nat) : Untouched s (s.succeed res) :=
  ⟨fun b => by simp, fun a => by simp [State.rawAt], by simp⟩

/-- A successful command that commits one buffer changes that buffer only. -/
theorem onlyBuf_setBuf_succeed (s : State) (d : BufId) (q : Bits) (res : Nat) :
    OnlyBuf d q s ((s.setBuf d q).succeed res) :=
  ⟨by simp, fun b hb => by simpa using s.buf_setBuf_other d b q hb,
    fun a => by simp [State.rawAt], by simp⟩

/-- A decompress command ends in one of three ways. -/
theorem deliver_cases (d : BufId) (r : DecodeResult Reading) (s : State) :
    (∃ off, r = .malformed off ∧ deliver d r s = s.raise .malformedStream off) ∨
    (∃ g, r = .ok g ∧ s.cap < g.len ∧ deliver d r s = s.raise .capacityExceeded 0) ∨
    (∃ g, r = .ok g ∧ g.len ≤ s.cap ∧ deliver d r s = (s.setBuf d g.bits).succeed 0) := by
  cases r with
  | malformed off => exact .inl ⟨off, rfl, rfl⟩
  | ok g =>
    by_cases h : s.cap < g.len
    · exact .inr (.inl ⟨g, rfl, h, by simp [deliver, h]⟩)
    · exact .inr (.inr ⟨g, rfl, by omega, by simp [deliver, h]⟩)

/-- A stream unit stops if no decoder reads it, and else ends the command as malformed or moves the scan
on: nothing else. -/
theorem onScan_cases (reads : Codec → Bool) (effect : Scan → Option Scan) (s : State) :
    ((∀ j, s.job = some j → reads j.codec = false) ∧
      onScan reads effect s = .fault .noDecoderReading) ∨
    (∃ j, s.job = some j ∧ reads j.codec = true ∧ effect j.scan = none ∧
      onScan reads effect s = .next (s.raise .malformedStream j.scan.pos)) ∨
    (∃ j sc, s.job = some j ∧ reads j.codec = true ∧ effect j.scan = some sc ∧
      onScan reads effect s = .next { s with job := some { j with scan := sc } }) := by
  unfold onScan
  cases hj : s.job with
  | none => exact .inl ⟨fun _ h => by simp at h, rfl⟩
  | some j =>
    by_cases hr : reads j.codec = true
    · cases he : effect j.scan with
      | none => exact .inr (.inl ⟨j, rfl, hr, he, by simp [hr, he, raises]⟩)
      | some sc => exact .inr (.inr ⟨j, sc, rfl, hr, he, by simp [hr, he]⟩)
    · exact .inl ⟨fun j' h => by cases h; simpa using hr, by simp [hr]⟩

/-- A stream unit stops exactly if no decoder reads it. -/
theorem onScan_fault_iff (reads : Codec → Bool) (effect : Scan → Option Scan) (s : State)
    (r : Fault) : onScan reads effect s = .fault r ↔
      r = .noDecoderReading ∧ ∀ j, s.job = some j → reads j.codec = false := by
  rcases onScan_cases reads effect s with ⟨h, e⟩ | ⟨j, hj, hr, _, e⟩ | ⟨j, sc, hj, hr, _, e⟩
  · rw [e]
    exact ⟨fun x => by cases x; exact ⟨rfl, h⟩, fun x => by rw [x.1]⟩
  all_goals simp [e, hj, hr]

/-- A WAH word is read by a WAH decoder of its word size. -/
theorem Codec.readsWahWord_eq_false (w : Nat) (c : Codec) :
    c.readsWahWord w = false ↔ ∀ f, c ≠ .wah w f := by
  cases c <;> simp [Codec.readsWahWord, eq_comm (a := w)]

/-- A BBC record is read by a BBC decoder. -/
theorem Codec.readsBbcRecord_eq_false (c : Codec) :
    c.readsBbcRecord = false ↔ ∀ n, c ≠ .bbc n := by
  cases c <;> simp [Codec.readsBbcRecord]

/-- The word a decoder of size `w` reads has that size. -/
theorem readWahWord_size (w : Nat) (rest : Bits) (u : WahWord) (h : readWahWord w rest = .unit u) :
    (∃ p, u = .literal p ∧ p.length + 1 = w) ∨ ∃ v n, u = .fill w v n := by
  unfold readWahWord at h
  split at h
  · cases h
  · next hl =>
    split at h
    · next p ps e =>
      cases h
      have : (rest.take w).length = ps.length + 2 := by rw [e]; rfl
      exact .inl ⟨_, rfl, by simp at this ⊢; omega⟩
    · cases h
      exact .inr ⟨_, _, rfl⟩
    · cases h

@[simp] theorem Scan.start_pos : Scan.start.pos = 0 := rfl
@[simp] theorem Scan.start_out : Scan.start.out = [] := rfl
@[simp] theorem Scan.start_units : Scan.start.units = 0 := rfl
@[simp] theorem Scan.start_bits : Scan.start.bits = [] := rfl

@[simp] theorem Scan.emit_pos (sc : Scan) (w n : Nat) (u : Bits) :
    (sc.emit w u n).pos = sc.pos + w := rfl

@[simp] theorem Scan.emit_units (sc : Scan) (w n : Nat) (u : Bits) :
    (sc.emit w u n).units = sc.units + n := by simp [Scan.emit, Scan.units]

@[simp] theorem Scan.emit_bits (sc : Scan) (w n : Nat) (u : Bits) :
    (sc.emit w u n).bits = sc.bits ++ (List.replicate n u).flatten := by
  simp [Scan.emit, Scan.bits, Emit.bits]

/-- A unit of one kind repeated is a run of its bit. -/
theorem flatten_replicate_rep (v : Bool) (n k : Nat) :
    (List.replicate n (rep v k)).flatten = rep v (n * k) := by
  induction n with
  | zero => simp
  | succ n ih => rw [List.replicate_succ, List.flatten_cons, ih, Nat.succ_mul, Nat.add_comm, rep_add]

/-- A run has at most the groups that are left. -/
theorem runLength_le (g : Bits) (gs : List Bits) : runLength g gs ≤ gs.length := by
  induction gs with
  | nil => simp [runLength]
  | cons h t ih => simp only [runLength, List.length_cons]; split <;> omega

/-- The groups of a run are copies of its first. -/
theorem take_runLength (g : Bits) (gs : List Bits) :
    gs.take (runLength g gs) = List.replicate (runLength g gs) g := by
  induction gs with
  | nil => simp [runLength]
  | cons h t ih =>
    simp only [runLength]
    split
    · next heq => simp [List.replicate_succ, ih, heq]
    · simp

/-- A byte run has at most the bytes that are left. -/
theorem byteRun_le (y : Byte) (ys : List Byte) : byteRun y ys ≤ ys.length := by
  induction ys with
  | nil => simp [byteRun]
  | cons h t ih => simp only [byteRun, List.length_cons]; split <;> omega

/-- The bytes of a run are copies of its first. -/
theorem take_byteRun (y : Byte) (ys : List Byte) :
    ys.take (byteRun y ys) = List.replicate (byteRun y ys) y := by
  induction ys with
  | nil => simp [byteRun]
  | cons h t ih =>
    simp only [byteRun]
    split
    · next heq => simp [List.replicate_succ, ih, heq]
    · simp

/-- The number of bits `unpack` gives, when the bytes hold that many. -/
theorem length_unpack (ys : List Byte) (n : Nat) (h : n ≤ 8 * ys.length) :
    (unpack ys n).length = n := by
  have : (ys.flatMap bitsOfByte).length = 8 * ys.length := by
    clear h
    induction ys with
    | nil => rfl
    | cons y ys ih => simp [bitsOfByte, ih]; omega
  simp [unpack, this, h]

end Sys2Proof.Machine
end

