-- ==== Sys2Proof/Laws/PerInstr.lean ====
section
/-! SUPPORT. One statement per family about every instruction as it is written. -/

namespace Sys2Proof

/-- How many bits an encoding has. -/
def Encoded.width : Encoded → Nat
  | .command _ => 136
  | .wahWord _ bits => bits.length
  | .bbcRecord bits => bits.length

/-- How many bits an instruction takes (`spec/30_encoding.md` rule R78): a command word 136, a WAH word
its word size, a BBC record what its tag says, a reserved tag the tag alone. -/
def Instr.width : Instr → Nat
  | .wahLiteral payload => payload.length + 1
  | .wahFill w _ _ => w
  | .bbcZeroRun _ | .bbcOneRun _ | .bbcLiteral _ => 11
  | .bbcSingleSet _ | .bbcSingleClear _ => 6
  | .bbcReserved101 | .bbcReserved110 | .bbcReserved111 => 3
  | .bsClear _ | .bsLen _ | .bsGet _ _ | .bsAppend _ _ | .bsSlice _ _ _ _ | .bsFromBytes _ _
  | .bsToBytes _ | .reservedOp7 _ _ _ _ | .wahCompress _ _ _ | .wahDecompress _ _ _ _
  | .bbcCompress _ _ | .bbcDecompress _ _ _ | .rawWr _ _ | .rawRd _ | .rdErrs | .clrErrs => 136

end Sys2Proof

namespace Sys2Proof.Laws.EncodedWidth

/-- The encoding of a well-formed instruction has the width rule R78 gives it. -/
def Statement (i : Instr) : Prop := i.wellFormed = true → (encode i).width = i.width

theorem bsClear (d : BufId) : Statement (.bsClear d) := fun _ => rfl
theorem bsLen (s : BufId) : Statement (.bsLen s) := fun _ => rfl
theorem bsGet (s : BufId) (i : Operand) : Statement (.bsGet s i) := fun _ => rfl
theorem bsAppend (d : BufId) (bit : Operand) : Statement (.bsAppend d bit) := fun _ => rfl
theorem bsSlice (d s : BufId) (start stop : Operand) : Statement (.bsSlice d s start stop) :=
  fun _ => rfl
theorem bsFromBytes (d : BufId) (n : Operand) : Statement (.bsFromBytes d n) := fun _ => rfl
theorem bsToBytes (s : BufId) : Statement (.bsToBytes s) := fun _ => rfl
theorem reservedOp7 (d s : BufId) (a0 a1 : Operand) : Statement (.reservedOp7 d s a0 a1) :=
  fun _ => rfl
theorem wahCompress (d s : BufId) (w : Operand) : Statement (.wahCompress d s w) := fun _ => rfl
theorem wahDecompress (d s : BufId) (w finalBits : Operand) :
    Statement (.wahDecompress d s w finalBits) := fun _ => rfl
theorem bbcCompress (d s : BufId) : Statement (.bbcCompress d s) := fun _ => rfl
theorem bbcDecompress (d s : BufId) (origBits : Operand) : Statement (.bbcDecompress d s origBits) :=
  fun _ => rfl
theorem rawWr (addr byte : Operand) : Statement (.rawWr addr byte) := fun _ => rfl
theorem rawRd (addr : Operand) : Statement (.rawRd addr) := fun _ => rfl
theorem rdErrs : Statement .rdErrs := fun _ => rfl
theorem clrErrs : Statement .clrErrs := fun _ => rfl
theorem wahLiteral (payload : Bits) : Statement (.wahLiteral payload) := by
  intro _
  simp [encode, Encoded.width, WahWord.bits, Instr.width]
theorem wahFill (w : Nat) (v : Bool) (count : Nat) : Statement (.wahFill w v count) := by
  intro h
  simp only [Instr.wellFormed, wordSizeOk, Bool.and_eq_true, decide_eq_true_eq] at h
  have hw : 2 ≤ w := h.1.1
  simp [encode, Encoded.width, WahWord.bits, Instr.width]
  omega
theorem bbcZeroRun (n : BitVec 8) : Statement (.bbcZeroRun n) := fun _ => by
  simp [encode, Encoded.width, BbcRecord.bits, Instr.width]
theorem bbcOneRun (n : BitVec 8) : Statement (.bbcOneRun n) := fun _ => by
  simp [encode, Encoded.width, BbcRecord.bits, Instr.width]
theorem bbcSingleSet (i : BitVec 3) : Statement (.bbcSingleSet i) := fun _ => by
  simp [encode, Encoded.width, BbcRecord.bits, Instr.width]
theorem bbcSingleClear (i : BitVec 3) : Statement (.bbcSingleClear i) := fun _ => by
  simp [encode, Encoded.width, BbcRecord.bits, Instr.width]
theorem bbcLiteral (b : Byte) : Statement (.bbcLiteral b) := fun _ => by
  simp [encode, Encoded.width, BbcRecord.bits, Instr.width]
theorem bbcReserved101 : Statement .bbcReserved101 := fun _ => rfl
theorem bbcReserved110 : Statement .bbcReserved110 := fun _ => rfl
theorem bbcReserved111 : Statement .bbcReserved111 := fun _ => rfl

end Sys2Proof.Laws.EncodedWidth
end

