-- ==== Sys2Proof/Laws/Step.lean ====
section
/-! SUPPORT. Runs of the machine: what every step keeps, every run keeps. -/

namespace Sys2Proof.Machine

/-- What holds of a state and is kept by every step holds at the end of every run from it. -/
theorem run_keeps (P : State → Prop) (keep : ∀ s t, step s = .next t → P s → P t) (k : Nat)
    (s t : State) (h : core.run k s = .next t) (hs : P s) : P t := by
  induction k generalizing s with
  | zero =>
    simp only [Host.Core.run] at h
    cases h
    exact hs
  | succ k ih =>
    simp only [Host.Core.run, core] at h
    cases hstep : step s with
    | next u =>
      rw [hstep] at h
      exact ih u h (keep s u hstep hs)
    | fault r => rw [hstep] at h; cases h
    | refused r => rw [hstep] at h; cases h

/-- Between commands, with a command pending, a step is that command. -/
theorem step_of_pending (s : State) (w : CmdWord) (hj : s.job = none)
    (hp : s.prog[s.pc]? = some w) : step s = runCommand w s := by
  simp [step, hj, State.pending, hp]

/-- Under a decoder at work, a step is its next move. -/
theorem step_of_job (s : State) (j : Job) (hj : s.job = some j) : step s = runUnit j s := by
  simp [step, hj]

end Sys2Proof.Machine
end

