-- ==== Sys2Proof/Tests/Slice0.lean ====
section
/-! SUPPORT. The model's own tests.  Expected values are those of `spec/95_test_vectors.md` (its row
numbers stand beside the tests) or worked out by hand from the rule named.  After the tests, one
witness for each statement with hypotheses: a concrete state and operands that meet them. -/

namespace Sys2Proof.Tests

open Sys2Proof Sys2Proof.Machine

/-! ## Well-formedness: an ill-formed term for each check -/

theorem test_wellFormed_refuses_empty_payload : (Instr.wahLiteral []).wellFormed = false := by decide
theorem test_wellFormed_refuses_long_payload :
    (Instr.wahLiteral (rep true 64)).wellFormed = false := by decide
theorem test_wellFormed_refuses_word_size_one : (Instr.wahFill 1 true 0).wellFormed = false := by
  decide
theorem test_wellFormed_refuses_word_size_65 : (Instr.wahFill 65 true 1).wellFormed = false := by
  decide
theorem test_wellFormed_refuses_wide_counter : (Instr.wahFill 4 true 4).wellFormed = false := by
  decide
theorem test_wellFormed_allows_widest_counter : (Instr.wahFill 4 true 3).wellFormed = true := by
  decide

/-! ## Decoding: a word of each constructor, from section 3 to 9 of the vectors -/

theorem test_decode_bsClear : decodeCommand 0x10 = .instr (.bsClear .b1) := by decide
theorem test_decode_bsLen : decodeCommand 0xC1 = .instr (.bsLen .b3) := by decide
theorem test_decode_bsGet : decodeCommand 0x30C2 = .instr (.bsGet .b3 48) := by decide
theorem test_decode_bsAppend : decodeCommand 0x213 = .instr (.bsAppend .b1 2) := by decide
theorem test_decode_bsSlice :
    decodeCommand 0x5000000000000000214 = .instr (.bsSlice .b1 .b0 2 5) := by decide
theorem test_decode_bsFromBytes : decodeCommand 0x935 = .instr (.bsFromBytes .b3 9) := by decide
theorem test_decode_bsToBytes : decodeCommand 0x86 = .instr (.bsToBytes .b2) := by decide
theorem test_decode_reservedOp7 :
    decodeCommand 0xFFF7 = .instr (.reservedOp7 .b3 .b3 0xFF 0) := by decide
theorem test_decode_wahCompress : decodeCommand 0x4168 = .instr (.wahCompress .b2 .b1 65) := by
  decide
theorem test_decode_wahDecompress :
    decodeCommand 0x3000000000000000469 = .instr (.wahDecompress .b2 .b1 4 3) := by decide
theorem test_decode_bbcCompress : decodeCommand 0x1A = .instr (.bbcCompress .b1 .b0) := by decide
theorem test_decode_bbcDecompress : decodeCommand 0x336B = .instr (.bbcDecompress .b2 .b1 51) := by
  decide
theorem test_decode_rawWr : decodeCommand 0xFF00000000000000010C = .instr (.rawWr 1 0xFF) := by
  decide
theorem test_decode_rawRd : decodeCommand 0x1FF0D = .instr (.rawRd 511) := by decide
theorem test_decode_rdErrs : decodeCommand 0xE = .instr .rdErrs := by decide
theorem test_decode_clrErrs : decodeCommand 0xF = .instr .clrErrs := by decide

/-- Section 8: the illegal words with an unused field set. -/
theorem test_decode_illegal_words :
    decodeCommand 0x11 = .reject (.unusedField "BS_LEN") ∧
    decodeCommand 0x100 = .reject (.unusedField "BS_CLEAR") ∧
    decodeCommand 0x40 = .reject (.unusedField "BS_CLEAR") ∧
    decodeCommand 0x1000000000000000002 = .reject (.unusedField "BS_GET") ∧
    decodeCommand 0x1E = .reject (.unusedField "RD_ERRS") ∧
    decodeCommand 0x10F = .reject (.unusedField "CLR_ERRS") ∧
    decodeCommand 0x100000000000000001A = .reject (.unusedField "BBC_COMPRESS") ∧
    decodeCommand 0x4D = .reject (.unusedField "RAW_RD") := by decide

/-- Rule R68: `0ppppppp` with payload `0100100` (the first word of S1). -/
theorem test_decode_wahLiteral : decode (.wahWord 8 (bitsN 8 0b00100100)) =
    .instr (.wahLiteral [false, true, false, false, true, false, false]) := by decide
/-- Rule R69: W1's first word, fill(0, 3) at `W = 4`. -/
theorem test_decode_wahFill : decode (.wahWord 4 [true, false, true, true]) =
    .instr (.wahFill 4 false 3) := by decide
/-- Rule R71: at `W = 2` the counter has no bits and is 0. -/
theorem test_decode_wahFill_two : decode (.wahWord 2 [true, true]) = .instr (.wahFill 2 true 0) := by
  decide
theorem test_decode_wah_truncated : decode (.wahWord 4 [true, false]) = .reject .truncatedWord := by
  decide
/-- Rule R73: `000 00000010`. -/
theorem test_decode_bbcZeroRun : decode (.bbcRecord
    [false, false, false, false, false, false, false, false, false, true, false]) =
    .instr (.bbcZeroRun 2) := by decide
/-- Rule R73: `001 00000011`. -/
theorem test_decode_bbcOneRun : decode (.bbcRecord
    [false, false, true, false, false, false, false, false, false, true, true]) =
    .instr (.bbcOneRun 3) := by decide
/-- Rule R74: `010111` is byte `0x01`, index 7. -/
theorem test_decode_bbcSingleSet :
    decode (.bbcRecord [false, true, false, true, true, true]) = .instr (.bbcSingleSet 7) := by decide
/-- Rule R74: `011000` is byte `0x7F`, index 0. -/
theorem test_decode_bbcSingleClear :
    decode (.bbcRecord [false, true, true, false, false, false]) = .instr (.bbcSingleClear 0) := by
  decide
/-- Vector B1's last record: `100 10100000`. -/
theorem test_decode_bbcLiteral : decode (.bbcRecord
    [true, false, false, true, false, true, false, false, false, false, false]) =
    .instr (.bbcLiteral 0xA0) := by decide
theorem test_decode_bbcReserved :
    decode (.bbcRecord [true, false, true]) = .instr .bbcReserved101 ∧
    decode (.bbcRecord [true, true, false]) = .instr .bbcReserved110 ∧
    decode (.bbcRecord [true, true, true]) = .instr .bbcReserved111 := by decide
/-- Vectors Y6 and Y7. -/
theorem test_decode_bbc_truncated :
    decode (.bbcRecord [false, true]) = .reject .truncatedTag ∧
    decode (.bbcRecord [false, true, false, false]) = .reject .truncatedField := by decide

/-- Rule R65's example responses: `OK res=21` is `0xA8`, `OutOfRange res=0 off=7` is
`0x380000000000000002`. -/
theorem test_response_words : (Response.mk 0 21 0).word = 0xA8 ∧
    (Response.mk 2 0 7).word = 0x380000000000000002 := by decide

/-! ## One step on a small state -/

/-- What a step answers, when it answers a next state. -/
def stepped (s : State) : Option State :=
  match step s with
  | .next t => some t
  | .fault _ | .refused _ => none

/-- A core of capacity 4096 with these buffers, `RAW` bytes and this pending command. -/
def small (w : CmdWord) (b0 b1 : Bits) (raw : List Host.Cell) : State :=
  { State.reset with b0 := b0, b1 := b1, raw := raw, prog := [w] }

/-- The response, as status, result and offset. -/
def answerOf (s : State) : Option (Nat × Nat × Nat) :=
  ((stepped s).bind (·.rsp)).map fun r => (r.status.toNat, r.res.toNat, r.off.toNat)

/-- `1011001` (section 3, row 4). -/
def q7 : Bits := bitsN 7 0b1011001

theorem test_bsClear : (stepped (small 0x10 [] q7 [])).map (·.b1) = some [] := by decide
theorem test_bsLen : answerOf (small 0x1 q7 [] []) = some (0, 7, 0) := by decide
theorem test_bsGet : answerOf (small 0x602 q7 [] []) = some (0, 1, 0) := by decide
theorem test_bsGet_past : answerOf (small 0x702 q7 [] []) = some (2, 0, 7) := by decide
theorem test_bsAppend : (stepped (small 0x113 [] q7 [])).map (·.b1) = some (bitsN 8 0b10110011) := by
  decide
theorem test_bsAppend_two : answerOf (small 0x213 [] q7 []) = some (1, 0, 0) := by decide
theorem test_bsSlice : (stepped (small 0x5000000000000000214 q7 [] [])).map (·.b1) =
    some [true, true, false] := by decide
theorem test_bsSlice_end_first : answerOf (small 0x8000000000000000914 q7 [] []) = some (2, 0, 8) := by
  decide
theorem test_bsFromBytes : (stepped (small 0xC35 [] [] [(0, 0xB0), (1, 0xFF)])).map (·.b3) =
    some (bitsN 12 0b101100001111) := by decide
theorem test_bsFromBytes_capacity : answerOf (small 0x100135 [] [] []) = some (4, 0, 0) := by decide
theorem test_bsToBytes : (stepped (small 0x6 (bitsN 9 0b101100001) [] [(2, 7)])).map (·.raw) =
    some [(0, 0xB0), (1, 0x80), (2, 7)] := by decide
theorem test_reservedOp7 : (stepped (small 0x7 q7 [] [])).map (·.errs) = some 2 := by decide
/-- Vector W1. -/
theorem test_wahCompress : (stepped (small 0x418 (bitsN 21 0b101111) [] [])).map
    (fun t => (t.b1, t.rsp)) = some (bitsN 16 0b1011101001010111, some ⟨0, 3, 0⟩) := by decide
/-- Vector W6: `W = 2`, literals only. -/
theorem test_wahCompress_two : (stepped (small 0x218 (bitsN 4 0b1101) [] [])).map (·.b1) =
    some (bitsN 8 0b01010001) := by decide
/-- Vector V18: a fill word whose last group is cut to one bit. -/
theorem test_wahDecompress : (stepped (small 0x1000000000000000449 [] [] [])).map
    (fun t => t.rsp) = some (some ⟨3, 0, 0⟩) ∧
    wahDec (bitsN 4 0b1011) 1 4 = .ok (7, rep false 7) := by decide
/-- Rule R217: a 64-bit word that stands for `2^62 - 1` groups fails by capacity. -/
theorem test_wahDecompress_huge :
    answerOf (small 0x1000000000000004049 [] (bitsN 64 (2 ^ 63 + 2 ^ 62 - 1)) []) =
      some (4, 0, 0) := by decide
/-- Vector B1. -/
theorem test_bbcCompress : (stepped (small 0x1A (bitsN 48 0x0000FF807FA0) [] [])).map
    (fun t => (t.b1, t.rsp)) = some (bitsN 11 0b00000000010 ++ bitsN 11 0b00100000001 ++
      bitsN 6 0b010000 ++ bitsN 6 0b011000 ++ bitsN 11 0b10010100000, some ⟨0, 48, 0⟩) := by decide
/-- Vectors Y27 and Y10. -/
theorem test_bbcDecompress :
    (stepped (small 0x144B [] (bitsN 11 0b00000000010 ++ bitsN 11 0b00100000001) [])).map (·.b0) =
      some (rep false 16 ++ rep true 4) ∧
    answerOf (small 0x94B [] (bitsN 6 0b010000) []) = some (3, 0, 6) := by decide
theorem test_rawWr : (stepped (small 0xFF00000000000000010C [] [] [(1, 3)])).map (·.raw) =
    some [(1, 0xFF)] := by decide
/-- Section 3, row 40: the operand check comes before the range check. -/
theorem test_rawWr_priority : answerOf (small 0x10000000000000002000C [] [] []) = some (1, 0, 0) := by
  decide
theorem test_rawRd : answerOf (small 0xD [] [] [(0, 0xB2)]) = some (0, 178, 0) := by decide
theorem test_rawRd_past : answerOf (small 0x2000D [] [] []) = some (2, 0, 512) := by decide
theorem test_rdErrs : answerOf { small 0xE [] [] [] with errs := 12 } = some (0, 12, 0) := by decide
theorem test_clrErrs : (stepped { small 0xF [] [] [] with errs := 30 }).map (·.errs) = some 0 := by
  decide

/-! ## One unit of a stream -/

/-- A decoder that has read `pos` bits of a stream. -/
def reading (c : Codec) (stream : Bits) (pos : Nat) : State :=
  { State.reset with prog := [0], job := some ⟨c, .b2, stream, ⟨pos, []⟩⟩ }

/-- What the decoder has emitted, and where it is. -/
def scanned (s : State) : Option (Bits × Nat) :=
  ((stepped s).bind (·.job)).map fun j => (j.scan.bits, j.scan.pos)

theorem test_wahLiteral : scanned (reading (.wah 4 3) (bitsN 8 0b10110101) 4) =
    some ([true, false, true], 8) := by decide
theorem test_wahFill : scanned (reading (.wah 4 3) (bitsN 4 0b1110) 0) = some (rep true 6, 4) := by
  decide
/-- Vector V17: the second word has counter 0. -/
theorem test_wahFill_zero : answerOf (reading (.wah 4 3) (bitsN 8 0b01011000) 4) =
    some (3, 0, 4) := by decide
theorem test_bbcZeroRun : scanned (reading (.bbc 16) (bitsN 11 2) 0) = some (rep false 16, 11) := by
  decide
theorem test_bbcOneRun : scanned (reading (.bbc 8) (bitsN 11 0x101) 0) = some (rep true 8, 11) := by
  decide
theorem test_bbcSingleSet : scanned (reading (.bbc 8) (bitsN 6 0b010111) 0) =
    some (bitsN 8 0x01, 6) := by decide
theorem test_bbcSingleClear : scanned (reading (.bbc 8) (bitsN 6 0b011011) 0) =
    some (bitsN 8 0b11101111, 6) := by decide
theorem test_bbcLiteral : scanned (reading (.bbc 8) (bitsN 11 0b10010101010) 0) =
    some (bitsN 8 0b10101010, 11) := by decide
theorem test_bbcReserved101 : answerOf (reading (.bbc 0) (bitsN 3 5) 0) = some (3, 0, 0) := by decide
theorem test_bbcReserved110 : answerOf (reading (.bbc 0) (bitsN 3 6) 0) = some (3, 0, 0) := by decide
theorem test_bbcReserved111 : answerOf (reading (.bbc 0) (bitsN 3 7) 0) = some (3, 0, 0) := by decide

/-- Rule R80's line of program P1, and rule R81's expansion in words (section 3, row 4). -/
theorem test_asm : asm (.wahDecompress .b2 .b1 4 3) = some "WAH_DECOMPRESS B2, B1, 4, 3" ∧
    assemble (bsLit .b0 q7) = [0x0, 0x103, 0x3, 0x103, 0x103, 0x3, 0x3, 0x103] := by decide

/-! ## The table words the host asks about -/

theorem test_table_words :
    decodeTableWord 136 3 = some (.bsAppend .b0 0) ∧ decodeTableWord 8 0x80 = some (.wahFill 8 false 0) ∧
    decodeTableWord 8 0x10 = some (.bbcSingleSet 0) ∧ decodeTableWord 16 0x400 = some (.bbcLiteral 0) ∧
    decodeTableWord 8 5 = some .bbcReserved101 := by decide
theorem test_fetchWord : (stepped (State.reset.withFetchWord 136 3)).map (·.b0) = some [false] := by
  decide

/-! ## Witnesses: states and operands that meet the statements' hypotheses -/

/-- A core of capacity 16: `B0 = 1011`, `B1 = 10111010`, `B2 = 1000`, `B3` full, `BS_LEN B0` pending. -/
def base : State :=
  { State.resetWith 16 with
    b0 := [true, false, true, true], b1 := bitsN 8 0b10111010, b2 := [true, false, false, false],
    b3 := rep true 16, prog := [1] }

/-- `base` with another command pending. -/
def pend (w : CmdWord) : State := { base with prog := [w] }

theorem pend_inv (w : CmdWord) : (pend w).Inv where
  cap_legal := show 1 ≤ 16 ∧ 16 < 2 ^ 64 by decide
  bufs_fit := by intro b; cases b <;> simp [State.buf, pend, base, State.resetWith, bitsN, rep]
  raw_canonical := rfl
  raw_in_range := fun _ _ => rfl
  errs_bit0 := show (0#5).getLsbD 0 = false by decide
  pc_in := Nat.zero_le _
  idle := rfl

theorem base_inv : base.Inv := pend_inv 1

theorem witness_ResetState : ∃ s : State, s = State.reset ∨ ∃ cap, s = State.resetWith cap :=
  ⟨_, .inl rfl⟩

theorem witness_ResetMeetsInvariant : LegalCap 1 ∧ LegalCap (2 ^ 64 - 1) :=
  ⟨⟨by decide, by decide⟩, by decide, by decide⟩

theorem witness_StepKeepsInvariant : ∃ s t : State, s.Inv ∧ step s = .next t :=
  ⟨base, _, base_inv, rfl⟩

theorem witness_StepRunsPendingCommand :
    (∃ (s : State) (w : CmdWord) (i : Instr), s.job = none ∧ s.prog[s.pc]? = some w ∧
      decodeCommand w = .instr i) ∧
    (∃ (s : State) (w : CmdWord) (r : Reject), s.job = none ∧ s.prog[s.pc]? = some w ∧
      decodeCommand w = .reject r) :=
  ⟨⟨base, 1, .bsLen .b0, rfl, rfl, by decide⟩,
    ⟨pend 0x11, 0x11, .unusedField "BS_LEN", rfl, rfl, by decide⟩⟩

/-- A decoder at position `pos` of a stream. -/
def jobAt (c : Codec) (stream : Bits) (pos : Nat) : Job := ⟨c, .b2, stream, ⟨pos, []⟩⟩

theorem witness_StepRunsNextUnit :
    (∃ (j : Job) (u : WahWord), j.scan.pos < j.stream.length ∧ j.codec = .wah 4 3 ∧
      readWahWord 4 (j.stream.drop j.scan.pos) = .unit u) ∧
    (∃ (j : Job) (r : Reject), j.scan.pos < j.stream.length ∧ j.codec = .wah 4 3 ∧
      readWahWord 4 (j.stream.drop j.scan.pos) = .reject r) ∧
    (∃ (j : Job) (u : BbcRecord), j.scan.pos < j.stream.length ∧ j.codec = .bbc 8 ∧
      readBbcRecord (j.stream.drop j.scan.pos) = .unit u) ∧
    (∃ (j : Job) (r : Reject), j.scan.pos < j.stream.length ∧ j.codec = .bbc 8 ∧
      readBbcRecord (j.stream.drop j.scan.pos) = .reject r) ∧
    (∃ j : Job, j.stream.length ≤ j.scan.pos ∧ j.codec = .wah 4 3) ∧
    (∃ j : Job, j.stream.length ≤ j.scan.pos ∧ j.codec = .bbc 8) :=
  ⟨⟨jobAt (.wah 4 3) (bitsN 4 0b1011) 0, .fill 4 false 3, by decide, rfl, by decide⟩,
    ⟨jobAt (.wah 4 3) (bitsN 6 0b010110) 4, .truncatedWord, by decide, rfl, by decide⟩,
    ⟨jobAt (.bbc 8) (bitsN 6 0b010000) 0, .singleSet 0, by decide, rfl, by decide⟩,
    ⟨jobAt (.bbc 8) (bitsN 8 0b01000011) 6, .truncatedTag, by decide, rfl, by decide⟩,
    ⟨jobAt (.wah 4 3) (bitsN 4 0b1011) 4, by decide, rfl⟩,
    ⟨jobAt (.bbc 8) (bitsN 6 0b010000) 6, by decide, rfl⟩⟩

/-- Each side of the equivalences, each of the three kinds of unit, with no decoder and under the wrong
one. -/
theorem witness_WhereTheModelStops :
    (step State.reset = .fault .runEnded ∧ State.reset.job = none ∧
      State.reset.prog.length ≤ State.reset.pc) ∧
    (exec (.wahLiteral [true]) base = .fault .noDecoderReading ∧ base.job = none) ∧
    (∃ (s : State) (j : Job), s.job = some j ∧ exec (.wahLiteral []) s = .fault .noDecoderReading ∧
      (∀ f, j.codec ≠ .wah 1 f) ∧ exec (.wahFill 5 true 1) s = .fault .noDecoderReading ∧
      (∀ f, j.codec ≠ .wah 5 f) ∧
      exec (BbcRecord.literal 0).toInstr s = .fault .noDecoderReading ∧ ∀ m, j.codec ≠ .bbc m) :=
  ⟨⟨rfl, rfl, by decide⟩, ⟨rfl, rfl⟩, reading (.wah 4 3) [true] 0, _, rfl, rfl,
    (by intro f h; cases h), rfl, (by intro f h; cases h), rfl, (by intro m h; cases h)⟩

theorem witness_EveryCommandAnswers :
    ∃ (s : State) (w : CmdWord), s.job = none ∧ s.prog[s.pc]? = some w := ⟨base, 1, rfl, rfl⟩

theorem witness_FailureIsPrecise : (∃ off : Nat, off < 2 ^ 64) ∧
    ∃ (s t : State) (w : CmdWord) (r : Response), s.job = none ∧ s.prog[s.pc]? = some w ∧
      step s = .next t ∧ t.rsp = some r ∧ r.status ≠ 0 :=
  ⟨⟨0, by decide⟩, pend 7, _, 7, _, rfl, rfl, rfl, rfl, by decide⟩

theorem witness_SuccessKeepsErrs :
    ∃ (s t : State) (w : CmdWord) (r : Response), s.job = none ∧ s.prog[s.pc]? = some w ∧
      step s = .next t ∧ t.rsp = some r ∧ r.status = 0 :=
  ⟨base, _, 1, _, rfl, rfl, rfl, rfl, rfl⟩

theorem witness_NothingDependsOnErrs :
    ∃ (i : Instr) (s t : State), i ≠ .rdErrs ∧ exec i s = .next t :=
  ⟨.bsLen .b0, base, _, by decide, rfl⟩

theorem witness_RetryFailsTheSame :
    ∃ (i : Instr) (s t : State) (r : Response), s.job = none ∧ exec i s = .next t ∧
      t.rsp = some r ∧ r.status ≠ 0 :=
  ⟨.bsGet .b0 4, base, _, _, rfl, rfl, rfl, by decide⟩

theorem witness_OnlyDestinationsChange : ∃ (i : Instr) (s t : State) (b : BufId),
    exec i s = .next t ∧ destOf i ≠ some b ∧ writesRaw i = false :=
  ⟨.bsClear .b1, base, _, .b0, rfl, by decide, rfl⟩

theorem witness_DecodeInvertsEncode :
    (Instr.wahLiteral (rep true 63)).wellFormed = true ∧ (Instr.wahFill 2 true 0).wellFormed = true ∧
    (Instr.wahFill 64 true (2 ^ 62 - 1)).wellFormed = true ∧ (Instr.bbcZeroRun 255).wellFormed = true := by
  decide

theorem witness_CommandWordsAreCanonical : ∃ (w : CmdWord) (i : Instr), decodeCommand w = .instr i :=
  ⟨0xE, .rdErrs, by decide⟩

theorem witness_UnitsAreReadInPlace :
    ∃ (w : Nat) (u : WahWord), u.toInstr.wellFormed = true ∧ u.bits.length = w :=
  ⟨4, .fill 4 true 3, by decide, rfl⟩

theorem witness_IllegalWordsRaise :
    (∃ (s : State) (w : CmdWord), s.job = none ∧ s.prog[s.pc]? = some w ∧ w.extractLsb' 0 4 = 7#4) ∧
    (∃ (s : State) (w : CmdWord), s.job = none ∧ s.prog[s.pc]? = some w ∧
      ∀ row ∈ opcodeRows, row.hit w = false) :=
  ⟨⟨pend 0xFFF7, 0xFFF7, rfl, rfl, by decide⟩, ⟨pend 0x11, 0x11, rfl, rfl, by decide⟩⟩

theorem witness_ValAndBits : (∃ n v, v < 2 ^ n) ∧
    ∃ n v, ∃ q : Bits, v < 2 ^ n ∧ q.length = n ∧ val q = v :=
  ⟨⟨0, 0, by decide⟩, 3, 5, [true, false, true], by decide⟩

theorem witness_PackAndUnpack : (∃ (q : Bits) (j : Nat), j < ceilDiv q.length 8) ∧
    ∃ (bytes : List Byte) (n i : Nat), bytes.length = ceilDiv n 8 ∧ i < n :=
  ⟨⟨[true], 0, by decide⟩, [0xFF], 3, 2, by decide⟩

theorem witness_GroupsAndTrailer :
    (∃ (w : Nat) (x : Bits), 2 ≤ w ∧ w ≤ 64 ∧ x = []) ∧
    ∃ (w : Nat) (x : Bits) (j : Nat), 2 ≤ w ∧ w ≤ 64 ∧ x ≠ [] ∧ j < ceilDiv x.length (w - 1) :=
  ⟨⟨2, [], by decide⟩, 64, [true], 0, by decide⟩

theorem witness_BsLenResult : ∃ s : State, s.Inv := ⟨base, base_inv⟩

theorem witness_BsGetResult : ∃ s : State, (s.buf .b0).length ≤ (4 : Operand).toNat ∧
    (3 : Operand).toNat < (s.buf .b0).length := ⟨base, by decide⟩

theorem witness_BsAppendResult : ∃ s : State, 1 < (2 : Operand).toNat ∧ (1 : Operand).toNat ≤ 1 ∧
    (s.buf .b3).length = s.cap ∧ (s.buf .b0).length ≠ s.cap := ⟨base, by decide⟩

theorem witness_BsSliceResult : ∃ s : State, BufId.b1 ≠ .b0 ∧
    (s.buf .b0).length < (5 : Operand).toNat ∧ (4 : Operand).toNat ≤ (s.buf .b0).length ∧
    (2 : Operand).toNat < (3 : Operand).toNat ∧ (4 : Operand).toNat ≤ (4 : Operand).toNat :=
  ⟨base, by decide⟩

theorem witness_BsFromBytesResult : ∃ s : State, s.cap < (17 : Operand).toNat ∧
    (16 : Operand).toNat ≤ s.cap := ⟨base, by decide⟩

theorem witness_BsToBytesResult : ∃ s : State, s.Inv ∧ 0 < ceilDiv (s.buf .b3).length 8 :=
  ⟨base, base_inv, by decide⟩

theorem witness_AppendsBuild : ∃ (s : State) (q : Bits) (k : Operand), s.Inv ∧ q.length ≤ s.cap ∧
    k.toNat < q.length := ⟨base, rep true 16, 15, base_inv, by decide⟩

theorem witness_SlicesCompose :
    (∃ (s : State) (n : Operand), BufId.b1 ≠ .b0 ∧ n.toNat = (s.buf .b0).length) ∧
    ∃ (s t u v : State), exec (.bsSlice .b1 .b0 1 4) s = .next t ∧ Succeeded 0 s t ∧
      exec (.bsSlice .b2 .b1 1 3) t = .next u ∧ Succeeded 0 t u ∧
      exec (.bsSlice .b3 .b0 2 4) s = .next v ∧ Succeeded 0 s v ∧
      (2 : Operand).toNat = (1 : Operand).toNat + (1 : Operand).toNat ∧
      (4 : Operand).toNat = (1 : Operand).toNat + (3 : Operand).toNat :=
  ⟨⟨base, 4, by decide⟩, base, _, _, _, rfl,
    ⟨_, ⟨rfl, rfl, rfl, rfl, rfl⟩, rfl, rfl, rfl⟩, rfl,
    ⟨_, ⟨rfl, rfl, rfl, rfl, rfl⟩, rfl, rfl, rfl⟩, rfl,
    ⟨_, ⟨rfl, rfl, rfl, rfl, rfl⟩, rfl, rfl, rfl⟩, rfl, rfl⟩

theorem witness_BytesRoundTrip : ∃ (s : State) (n : Operand), s.Inv ∧ n.toNat = (s.buf .b0).length :=
  ⟨base, 4, base_inv, rfl⟩

theorem witness_RawWrResult : ∃ s : State, s.Inv ∧ 255 < (256 : Operand).toNat ∧
    (255 : Operand).toNat ≤ 255 ∧ ceilDiv s.cap 8 ≤ (2 : Operand).toNat ∧
    (1 : Operand).toNat < ceilDiv s.cap 8 := ⟨base, base_inv, by decide⟩

theorem witness_RawRdResult : ∃ s : State, ceilDiv s.cap 8 ≤ (2 : Operand).toNat ∧
    (1 : Operand).toNat < ceilDiv s.cap 8 := ⟨base, by decide⟩

theorem witness_RdErrsResult : ∃ s : State, s.Inv := ⟨base, base_inv⟩

theorem witness_ClrErrsResult : ∃ (s : State) (w : CmdWord), s.job = none ∧
    s.prog[s.pc]? = some w ∧ w.extractLsb' 0 4 = 15#4 ∧ w ≠ 15 :=
  ⟨pend 0x10F, 0x10F, rfl, rfl, by decide, by decide⟩

theorem witness_WahEncoderScan :
    (∃ (w r : Nat) (v : Bool) (rest : List Bits), 3 ≤ w ∧ w ≤ 64 ∧ 2 ≤ r ∧
      rest.head? ≠ some (rep v (w - 1))) ∧
    (∃ (w : Nat) (g : Bits) (rest : List Bits), 2 ≤ w ∧ w ≤ 64 ∧
      (w = 2 ∨ (g ≠ rep false (w - 1) ∧ g ≠ rep true (w - 1)) ∨ rest.head? ≠ some g)) :=
  ⟨⟨3, 2, true, [[false, false]], by decide⟩, 2, [true], [[true]], by decide⟩

theorem witness_WahCompressResult : ∃ s : State, BufId.b1 ≠ .b0 ∧ (1 : Operand).toNat < 2 ∧
    64 < (65 : Operand).toNat ∧ s.cap < (wahEnc (s.buf .b0) 64).1.length ∧
    (wahEnc (s.buf .b0) 2).1.length ≤ s.cap := ⟨base, by decide⟩

theorem witness_WahDecoderAnswers : wahDec (bitsN 4 0b1011) 1 4 = .ok (7, rep false 7) ∧
    wahDec (bitsN 6 0b010110) 3 4 = .malformed 4 ∧ wahDec [] 0 2 = .ok (0, []) ∧
    wahDec [] 1 64 = .malformed 0 := by decide

theorem witness_WahDecompressResult : ∃ s : State, s.Inv ∧ BufId.b3 ≠ .b2 ∧ BufId.b3 ≠ .b1 ∧
    wahDec (s.buf .b2) 3 4 = .malformed 0 ∧ wahDec (s.buf .b1) 1 4 = .ok (13, rep false 13) ∧
    13 ≤ s.cap := ⟨base, base_inv, by decide⟩

/-- Section 8, row 8: `T = 6`, `N = 18 > 16`. -/
theorem witness_WahDecompressResult_capacity : ∃ s : State, BufId.b3 ≠ .b2 ∧
    wahDec (s.buf .b2) 3 4 = .ok (18, rep false 18) ∧ s.cap < 18 :=
  ⟨{ base with b2 := bitsN 8 0b10111011 }, by decide⟩

theorem witness_WahRoundTrip : ∃ (s t : State) (r : Response), s.Inv ∧ BufId.b1 ≠ .b2 ∧
    exec (.wahCompress .b2 .b0 3) s = .next t ∧ t.rsp = some r ∧ r.status = 0 :=
  ⟨base, _, _, base_inv, by decide, rfl, rfl, rfl⟩

/-- Three zero groups, the last of one bit (as in vector W4), and two whole groups of ones at `W = 3`. -/
theorem witness_WahSize :
    (∃ (w r : Nat) (x : Bits), 3 ≤ w ∧ w ≤ 64 ∧ 2 ≤ r ∧ x.length = 7 ∧
      partition (w - 1) x = List.replicate r (rep false (w - 1))) ∧
    (∃ (w r : Nat) (x : Bits), 3 ≤ w ∧ w ≤ 64 ∧ 2 ≤ r ∧
      partition (w - 1) x = List.replicate r (rep true (w - 1))) :=
  ⟨⟨4, 3, rep false 7, by decide⟩, 3, 2, rep true 4, by decide⟩

theorem witness_WahWordSizeTwo : ∃ x : Bits, x ≠ [] := ⟨[true], by decide⟩

theorem witness_WahWordSizeThree : ∃ (r : Nat) (v : Bool) (rest : List Bits), 2 ≤ r ∧
    rest.head? ≠ some [v, v] := ⟨2, true, [], by decide⟩

theorem witness_BbcEncoderScan :
    (∃ (v : Bool) (r : Nat) (rest : List Byte), 1 ≤ r ∧
      rest.head? ≠ some (if v then 0xFF else 0x00)) ∧
    ∃ y : Byte, classOf y = .literal := ⟨⟨true, 1, [], by decide⟩, 0xA0, by decide⟩

theorem witness_BbcCompressResult : ∃ s : State, s.Inv ∧ BufId.b1 ≠ .b0 ∧
    (bbcEnc (s.buf .b0)).1.length ≤ s.cap := ⟨base, base_inv, by decide⟩

/-- Section 8, row 6: two literal records are 22 bits. -/
theorem witness_BbcCompressResult_capacity : ∃ s : State, s.Inv ∧ BufId.b0 ≠ .b3 ∧
    s.cap < (bbcEnc (s.buf .b3)).1.length :=
  ⟨{ base with b3 := bitsN 16 0b1010101010101010 },
    { base_inv with
      bufs_fit := by intro b; cases b <;> decide
      raw_in_range := fun _ _ => rfl },
    by decide⟩

theorem witness_BbcDecoderAnswers : bbcDec (bitsN 6 0b010000) 3 = .ok (3, [true, false, false]) ∧
    bbcDec (bitsN 8 0b01000011) 8 = .malformed 6 ∧ bbcDec [] 0 = .ok (0, []) ∧
    bbcDec [] 1 = .malformed 0 := by decide

theorem witness_BbcDecompressResult : ∃ s : State, s.Inv ∧ BufId.b3 ≠ .b2 ∧
    bbcDec (s.buf .b2) 8 = .malformed 0 := ⟨base, base_inv, by decide⟩

theorem witness_BbcDecompressResult_bits : ∃ s : State, BufId.b3 ≠ .b2 ∧
    bbcDec (s.buf .b2) 16 = .ok (16, rep false 16) ∧ 16 ≤ s.cap :=
  ⟨{ base with b2 := bitsN 11 2 }, by decide⟩

/-- Section 8, row 15: the byte count matches, `17 > 16`. -/
theorem witness_BbcDecompressResult_capacity : ∃ s : State, BufId.b3 ≠ .b2 ∧
    bbcDec (s.buf .b2) 17 = .ok (17, rep false 17) ∧ s.cap < 17 :=
  ⟨{ base with b2 := bitsN 11 3 }, by decide⟩

theorem witness_BbcRoundTrip : ∃ (s t : State) (r : Response), s.Inv ∧ BufId.b1 ≠ .b2 ∧
    exec (.bbcCompress .b2 .b0) s = .next t ∧ t.rsp = some r ∧ r.status = 0 :=
  ⟨base, _, _, base_inv, by decide, rfl, rfl, rfl⟩

/-- One zero byte of seven bits (as in vector B18), and one whole byte of ones. -/
theorem witness_BbcSize :
    (∃ (r : Nat) (x : Bits), 1 ≤ r ∧ x.length = 7 ∧ pack x = List.replicate r (0x00 : Byte)) ∧
    (∃ (r : Nat) (x : Bits), 1 ≤ r ∧ pack x = List.replicate r (0xFF : Byte)) :=
  ⟨⟨1, rep false 7, by decide⟩, 1, rep true 8, by decide⟩

theorem witness_WahWordsAct : ∃ (s : State) (j : Job) (p : Bits) (n : Nat), s.job = some j ∧
    j.codec = .wah (p.length + 1) 3 ∧ j.codec = .wah 4 3 ∧ 1 ≤ n ∧ j.scan.pos < 2 ^ 64 :=
  ⟨reading (.wah 4 3) (bitsN 4 0b1011) 0, _, rep true 3, 1, rfl, rfl, rfl, by decide, by decide⟩

theorem witness_BbcRecordsAct : ∃ (s : State) (j : Job) (u : BbcRecord), s.job = some j ∧
    j.codec = .bbc 8 ∧ bbcLegal u ∧ j.scan.pos < 2 ^ 64 :=
  ⟨reading (.bbc 8) (bitsN 11 1) 0, _, .zeroRun 1, rfl, rfl, by simp [bbcLegal], by decide⟩

theorem witness_ReservedTagsAreMalformed : ∃ (s : State) (j : Job), s.job = some j ∧
    j.codec = .bbc 0 ∧ j.scan.pos < 2 ^ 64 :=
  ⟨reading (.bbc 0) (bitsN 3 5) 0, _, rfl, rfl, by decide⟩

theorem witness_DecompressIsItsUnits : ∃ (s : State) (w : Operand), s.job = none ∧
    BufId.b3 ≠ .b1 ∧ 2 ≤ w.toNat ∧ w.toNat ≤ 64 := ⟨base, 64, rfl, by decide⟩

end Sys2Proof.Tests
end

/-! ## What a command commits, and how it ends

One inversion lemma for all sixteen commands (rules R11, R190): a command raises, leaving all but
`ERRS` alone, or it succeeds after at most one commit. -/

namespace Sys2Proof.Machine

/-- What instruction `i` may have committed to `s` before it answers: one buffer, its `d`, with a
sequence that fits; bytes of `RAW` inside its range; `ERRS` cleared; or nothing. -/
inductive Commits (i : Instr) (s : State) : State → Prop where
  | nothing : Commits i s s
  | buffer (d : BufId) (q : Bits) (dest : destOf i = some d) (fits : s.Inv → q.length ≤ s.cap) :
      Commits i s (s.setBuf d q)
  | raw (a : Nat) (ys : List Byte) (writes : writesRaw i = true)
      (inRange : s.Inv → a + ys.length ≤ s.rawBytes) :
      Commits i s (s.setRaw (Memory.writeN s.raw a ys))
  | errs (clears : i = .clrErrs) : Commits i s (s.setErrs errsCleared)

/-- The two ways a command ends: it raises on the state before it, or it succeeds on what it commits. -/
inductive Ends (i : Instr) (s : State) : Result → Prop where
  | raised (e : ErrorKind) (off : Nat) : Ends i s (raises e off s)
  | succeeded (res : Nat) (u : State) (commits : Commits i s u) : Ends i s (succeeds res u)

/-! ### Each command -/

section
variable (s : State)

theorem execBsClear_ends (d : BufId) : Ends (.bsClear d) s (execBsClear d s) :=
  .succeeded _ _ (.buffer d [] rfl fun _ => Nat.zero_le _)

theorem execBsLen_ends (b : BufId) : Ends (.bsLen b) s (execBsLen b s) := .succeeded _ _ .nothing

theorem execBsGet_ends (b : BufId) (i : Operand) : Ends (.bsGet b i) s (execBsGet b i s) := by
  unfold execBsGet
  split
  · exact .raised _ _
  · exact .succeeded _ _ .nothing

theorem execBsAppend_ends (d : BufId) (bit : Operand) :
    Ends (.bsAppend d bit) s (execBsAppend d bit s) := by
  unfold execBsAppend
  split_ifs with hbit hfull
  · exact .raised _ _
  · exact .raised _ _
  · refine .succeeded _ _ (.buffer d _ rfl fun inv => ?_)
    have := inv.bufs_fit d
    simp only [List.length_append, List.length_singleton]
    omega

theorem execBsSlice_ends (d b : BufId) (start stop : Operand) :
    Ends (.bsSlice d b start stop) s (execBsSlice d b start stop s) := by
  unfold execBsSlice
  split_ifs
  · exact .raised _ _
  · exact .raised _ _
  · exact .raised _ _
  · refine .succeeded _ _ (.buffer d _ rfl fun inv => ?_)
    have := inv.bufs_fit b
    simp only [slice, List.length_take, List.length_drop]
    omega

theorem execBsFromBytes_ends (d : BufId) (n : Operand) :
    Ends (.bsFromBytes d n) s (execBsFromBytes d n s) := by
  unfold execBsFromBytes
  split_ifs with hcap
  · exact .raised _ _
  · exact .succeeded _ _
      (.buffer d _ rfl fun _ => (List.length_take_le _ _).trans (Nat.le_of_not_lt hcap))

theorem execBsToBytes_ends (b : BufId) : Ends (.bsToBytes b) s (execBsToBytes b s) := by
  refine .succeeded _ _ (.raw 0 (pack (s.buf b)) rfl fun inv => ?_)
  have hcap : s.cap ≤ s.rawBytes * 8 := (ceilDiv_le_iff s.cap 8 _ (by decide)).mp le_rfl
  rw [length_pack, Nat.zero_add, ceilDiv_le_iff _ _ _ (by decide)]
  exact (inv.bufs_fit b).trans hcap

/-- The end both compress commands share (rules R115, R144). -/
theorem compressed_ends (i : Instr) (d : BufId) (q : Bits) (res : Nat) (dest : destOf i = some d) :
    Ends i s (if s.cap < q.length then raises .capacityExceeded 0 s
      else succeeds res (s.setBuf d q)) := by
  split_ifs with hcap
  · exact .raised _ _
  · exact .succeeded _ _ (.buffer d q dest fun _ => Nat.le_of_not_lt hcap)

theorem execWahCompress_ends (d b : BufId) (w : Operand) :
    Ends (.wahCompress d b w) s (execWahCompress d b w s) := by
  unfold execWahCompress
  split_ifs
  · exact .raised _ _
  · exact .raised _ _
  · exact compressed_ends s _ d _ _ rfl

theorem execBbcCompress_ends (d b : BufId) : Ends (.bbcCompress d b) s (execBbcCompress d b s) := by
  unfold execBbcCompress
  split_ifs
  · exact .raised _ _
  · exact compressed_ends s _ d _ _ rfl

/-- The end both decompress commands share (rules R117, R147). -/
theorem deliver_ends (i : Instr) (d : BufId) (r : DecodeResult Reading) (dest : destOf i = some d) :
    Ends i s (.next (deliver d r s)) := by
  obtain ⟨off, -, h⟩ | ⟨g, -, -, h⟩ | ⟨g, -, hlen, h⟩ := deliver_cases d r s
  · rw [h]; exact .raised _ _
  · rw [h]; exact .raised _ _
  · rw [h]
    exact .succeeded _ _ (.buffer d _ dest fun _ => (List.length_take_le _ _).trans hlen)

theorem execWahDecompress_ends (d b : BufId) (w f : Operand) :
    Ends (.wahDecompress d b w f) s (execWahDecompress d b w f s) := by
  unfold execWahDecompress
  split_ifs
  · exact .raised _ _
  · exact .raised _ _
  · exact deliver_ends s _ d _ rfl

theorem execBbcDecompress_ends (d b : BufId) (n : Operand) :
    Ends (.bbcDecompress d b n) s (execBbcDecompress d b n s) := by
  unfold execBbcDecompress
  split_ifs
  · exact .raised _ _
  · exact deliver_ends s _ d _ rfl

theorem execRawWr_ends (addr byte : Operand) : Ends (.rawWr addr byte) s (execRawWr addr byte s) := by
  unfold execRawWr
  split_ifs with hbyte haddr
  · exact .raised _ _
  · exact .raised _ _
  · refine .succeeded _ _ (.raw (opVal addr) [byteOfOperand byte] rfl fun _ => ?_)
    simp only [addrExists, Bool.not_eq_true', decide_eq_false_iff_not, not_not] at haddr
    exact haddr

theorem execRawRd_ends (addr : Operand) : Ends (.rawRd addr) s (execRawRd addr s) := by
  unfold execRawRd
  split_ifs
  · exact .raised _ _
  · exact .succeeded _ _ .nothing

theorem execRdErrs_ends : Ends .rdErrs s (execRdErrs s) := .succeeded _ _ .nothing

theorem execClrErrs_ends : Ends .clrErrs s (execClrErrs s) := .succeeded _ _ (.errs rfl)

theorem execReservedOp7_ends (d b : BufId) (a0 a1 : Operand) :
    Ends (.reservedOp7 d b a0 a1) s (execReservedOp7 d b a0 a1 s) := .raised _ _

end

/-- Every command, an instruction whose encoding is a command word, ends in one of the two ways. -/
theorem exec_ends (i : Instr) (s : State) (hi : ∃ w, encode i = .command w) :
    Ends i s (exec i s) := by
  cases i with
  | bsClear d => exact execBsClear_ends s d
  | bsLen b => exact execBsLen_ends s b
  | bsGet b n => exact execBsGet_ends s b n
  | bsAppend d bit => exact execBsAppend_ends s d bit
  | bsSlice d b start stop => exact execBsSlice_ends s d b start stop
  | bsFromBytes d n => exact execBsFromBytes_ends s d n
  | bsToBytes b => exact execBsToBytes_ends s b
  | reservedOp7 d b a0 a1 => exact execReservedOp7_ends s d b a0 a1
  | wahCompress d b w => exact execWahCompress_ends s d b w
  | wahDecompress d b w f => exact execWahDecompress_ends s d b w f
  | bbcCompress d b => exact execBbcCompress_ends s d b
  | bbcDecompress d b n => exact execBbcDecompress_ends s d b n
  | rawWr addr byte => exact execRawWr_ends s addr byte
  | rawRd addr => exact execRawRd_ends s addr
  | rdErrs => exact execRdErrs_ends s
  | clrErrs => exact execClrErrs_ends s
  | wahLiteral _ | wahFill _ _ _ | bbcZeroRun _ | bbcOneRun _ | bbcSingleSet _ | bbcSingleClear _
  | bbcLiteral _ | bbcReserved101 | bbcReserved110 | bbcReserved111 =>
    obtain ⟨w, hw⟩ := hi
    cases hw

end Sys2Proof.Machine

/-! ## The pending command -/

namespace Sys2Proof

/-- Rule R64 (b) lets an instruction through exactly if its unused fields are zero. -/
theorem ifUnusedZero_eq_instr (b : Bool) (m : String) (i j : Instr) :
    ifUnusedZero b m i = .instr j ↔ b = true ∧ i = j := by
  cases b <;> simp [ifUnusedZero]

/-- What a command word decodes to is a command, not a unit of a stream. -/
theorem encode_command_of_decodeCommand (w : CmdWord) (i : Instr)
    (h : decodeCommand w = .instr i) : ∃ w', encode i = .command w' := by
  unfold decodeCommand decodeFields at h
  split at h <;>
    · obtain ⟨-, rfl⟩ := (ifUnusedZero_eq_instr _ _ _ _).mp h
      exact ⟨_, rfl⟩

end Sys2Proof

namespace Sys2Proof.Machine

/-- Rule R11 for a word that is a command. -/
theorem runCommand_of_instr (w : CmdWord) (i : Instr) (s : State)
    (h : decodeCommand w = .instr i) : runCommand w s = exec i s := by
  simp only [runCommand, h]

/-- Rule R64 for a word that is none. -/
theorem runCommand_of_reject (w : CmdWord) (r : Reject) (s : State)
    (h : decodeCommand w = .reject r) : runCommand w s = raises .invalidParameter 0 s := by
  simp only [runCommand, h]

/-- What a pending word makes a step do: end as the command it decodes to ends, or raise
`InvalidParameter(0)`. -/
theorem step_pending_cases (s : State) (w : CmdWord) (hj : s.job = none)
    (hp : s.prog[s.pc]? = some w) :
    (∃ i, decodeCommand w = .instr i ∧ Ends i s (step s)) ∨
    (∃ r, decodeCommand w = .reject r ∧ step s = raises .invalidParameter 0 s) := by
  rw [step_of_pending s w hj hp]
  cases hw : decodeCommand w with
  | instr i =>
    rw [runCommand_of_instr w i s hw]
    exact .inl ⟨i, rfl, exec_ends i s (encode_command_of_decodeCommand w i hw)⟩
  | reject r => exact .inr ⟨r, rfl, runCommand_of_reject w r s hw⟩

/-- Between commands, a step that answers a next state had a word pending: at the end of the list the
run ends (rule R25). -/
theorem pending_of_step_next (s t : State) (hj : s.job = none) (h : step s = .next t) :
    ∃ w, s.prog[s.pc]? = some w := by
  cases hp : s.prog[s.pc]? with
  | some w => exact ⟨w, rfl⟩
  | none => simp [step, hj, State.pending, hp] at h

/-! ## The invariant, one lemma per operation over the state -/

/-- `CLR_ERRS` leaves bit 0 zero. -/
theorem errsCleared_bit0 : errsCleared.getLsbD 0 = false := rfl

/-- No error sets bit 0 of `ERRS` (rule R26). -/
theorem errsWith_bit0 (errs : BitVec 5) (e : ErrorKind) :
    (errsWith errs e).getLsbD 0 = errs.getLsbD 0 := by
  have := e.code_bounds
  rw [errsWith_getLsbD errs e 0 (by decide), beq_false_of_ne (by omega), Bool.or_false]

namespace State.Inv

/-- Reset gives the invariant at every legal capacity (rule R30). -/
theorem resetWith (cap : Nat) (h : LegalCap cap) : (State.resetWith cap).Inv where
  cap_legal := h
  bufs_fit b := by simp
  raw_canonical := rfl
  raw_in_range _ _ := rfl
  errs_bit0 := by simp
  pc_in := Nat.le_refl 0
  idle := rfl

variable {s : State}

theorem setBuf (h : s.Inv) (d : BufId) (q : Bits) (hq : q.length ≤ s.cap) : (s.setBuf d q).Inv where
  cap_legal := by simpa using h.cap_legal
  bufs_fit b := by
    by_cases hb : b = d
    · subst hb; simpa using hq
    · simpa [s.buf_setBuf_other d b q hb] using h.bufs_fit b
  raw_canonical := by simpa using h.raw_canonical
  raw_in_range := by simpa [rawAt, rawBytes] using h.raw_in_range
  errs_bit0 := by simpa using h.errs_bit0
  pc_in := by simpa using h.pc_in
  idle := by simpa using h.idle

theorem setRaw_writeN (h : s.Inv) (a : Nat) (ys : List Byte) (hys : a + ys.length ≤ s.rawBytes) :
    (s.setRaw (Memory.writeN s.raw a ys)).Inv where
  cap_legal := h.cap_legal
  bufs_fit b := by simpa using h.bufs_fit b
  raw_canonical := Memory.wf_writeN s.raw a ys h.raw_canonical
  raw_in_range a' ha' :=
    (Memory.read_writeN_outside s.raw a a' ys (.inr (hys.trans ha'))).trans (h.raw_in_range a' ha')
  errs_bit0 := h.errs_bit0
  pc_in := h.pc_in
  idle := h.idle

theorem setErrs (h : s.Inv) (e : BitVec 5) (he : e.getLsbD 0 = false) : (s.setErrs e).Inv where
  cap_legal := h.cap_legal
  bufs_fit b := by simpa using h.bufs_fit b
  raw_canonical := h.raw_canonical
  raw_in_range := h.raw_in_range
  errs_bit0 := he
  pc_in := h.pc_in
  idle := h.idle

/-- The host moves on within its list if a command was pending (rule R25). -/
theorem answer (h : s.Inv) (r : Response) (hpc : s.pc < s.prog.length) : (s.answer r).Inv where
  cap_legal := h.cap_legal
  bufs_fit b := by simpa using h.bufs_fit b
  raw_canonical := h.raw_canonical
  raw_in_range := h.raw_in_range
  errs_bit0 := h.errs_bit0
  pc_in := hpc
  idle := rfl

theorem raise (h : s.Inv) (e : ErrorKind) (off : Nat) (hpc : s.pc < s.prog.length) :
    (s.raise e off).Inv :=
  (h.setErrs _ ((errsWith_bit0 s.errs e).trans h.errs_bit0)).answer _ hpc

/-- A commit of any command keeps the invariant. -/
theorem commits (h : s.Inv) {i : Instr} {u : State} (hc : Commits i s u) : u.Inv := by
  cases hc with
  | nothing => exact h
  | buffer d q _ fits => exact h.setBuf d q (fits h)
  | raw a ys _ inRange => exact h.setRaw_writeN a ys (inRange h)
  | errs _ => exact h.setErrs _ errsCleared_bit0

end State.Inv

namespace Commits

variable {i : Instr} {s u : State}

/-- No commit moves the host's index, which the answer does. -/
theorem pc_eq (h : Commits i s u) : u.pc = s.pc := by cases h <;> simp

/-- No commit writes the host's list or the capacity. -/
theorem sameHost (h : Commits i s u) : SameHost s u := by
  cases h <;> exact ⟨by simp, by simp⟩

end Commits

/-- However a pending command ends, its next state meets the invariant. -/
theorem State.Inv.ends {s t : State} {i : Instr} (h : s.Inv) (hpc : s.pc < s.prog.length)
    (he : Ends i s (.next t)) : t.Inv := by
  cases he with
  | raised e off => exact h.raise e off hpc
  | succeeded res u hc =>
    refine (h.commits hc).answer _ ?_
    rw [hc.pc_eq, hc.sameHost.1]
    exact hpc

/-- Settles O3: the step is a pending command, and whatever it commits or raises keeps the invariant. -/
theorem stepKeepsInvariant : Obligations.StepKeepsInvariant := by
  intro s t inv h
  obtain ⟨w, hp⟩ := pending_of_step_next s t inv.idle h
  have hpc : s.pc < s.prog.length := (List.getElem?_eq_some_iff.mp hp).1
  obtain ⟨i, -, he⟩ | ⟨r, -, hr⟩ := step_pending_cases s w inv.idle hp
  · exact inv.ends hpc (h ▸ he)
  · cases h.symm.trans hr
    exact inv.raise _ _ hpc

/-! ## The answer of a command -/

/-- Rules R65 and R66, what every response meets: one of the five status codes, offset 0 on success,
result 0 on failure. -/
def Response.Legal (r : Response) : Prop :=
  r.status.toNat ≤ 4 ∧ (r.status = 0 → r.off = 0) ∧ (r.status ≠ 0 → r.res = 0)

theorem answers_raise (s : State) (e : ErrorKind) (off : Nat) :
    ∃ r, Answered r s (s.raise e off) ∧ r.Legal := by
  have hcode : (BitVec.ofNat 3 e.code).toNat = e.code := by simp
  obtain ⟨hpos, hle⟩ := e.code_bounds
  refine ⟨_, ⟨s.raise_rsp e off, by simp, by simp, by simp, by simp⟩, ?_, fun h0 => ?_,
    fun _ => rfl⟩
  · exact hcode.trans_le hle
  · have : e.code = 0 := hcode.symm.trans (congrArg BitVec.toNat h0)
    omega

theorem answers_succeed {i : Instr} {s u : State} (res : Nat) (hc : Commits i s u) :
    ∃ r, Answered r s (u.succeed res) ∧ r.Legal :=
  ⟨_, ⟨u.succeed_rsp res, by simp [hc.pc_eq], by simp, hc.sameHost⟩, by simp, fun _ => rfl,
    fun h => absurd rfl h⟩

/-- Settles O7: a rejected word raises, and a command ends in one of its two ways. -/
theorem everyCommandAnswers : Obligations.EveryCommandAnswers := by
  intro s w hj hp
  suffices h : ∃ t, step s = .next t ∧ ∃ r, Answered r s t ∧ r.Legal by
    obtain ⟨t, ht, r, ha, hl⟩ := h
    exact ⟨t, r, ht, ha, hl⟩
  obtain ⟨i, -, he⟩ | ⟨r, -, hr⟩ := step_pending_cases s w hj hp
  · generalize step s = x at he
    cases he with
    | raised e off => exact ⟨_, rfl, answers_raise s e off⟩
    | succeeded res u hc => exact ⟨_, rfl, answers_succeed res hc⟩
  · exact ⟨_, hr, answers_raise s .invalidParameter 0⟩

/-- Settles O2: 4096 is a legal capacity, and reset gives the invariant at each of them. -/
theorem resetMeetsInvariant : Obligations.ResetMeetsInvariant :=
  ⟨.resetWith Config.cap (by simp [LegalCap, Config.cap, Config.capBound, Config.xlen]), .resetWith⟩

/-- Settles O4: the two equations of `runCommand`. -/
theorem stepRunsPendingCommand : Obligations.StepRunsPendingCommand := by
  intro s w hj hp
  rw [step_of_pending s w hj hp]
  exact ⟨fun i => runCommand_of_instr w i s, fun r => runCommand_of_reject w r s⟩

end Sys2Proof.Machine

/-! ## `val` and `bits_N` (rule R8) -/

namespace Sys2Proof

/-- The recursion of `val` gives the sum of rule R8. -/
theorem val_eq_sum (q : Bits) :
    val q = ∑ i : Fin q.length, (q[i]).toNat * 2 ^ (q.length - 1 - i.val) := by
  induction q with
  | nil => rfl
  | cons b q ih =>
    have shift (i : Fin q.length) : q.length - (i.val + 1) = q.length - 1 - i.val := by omega
    rw [val_cons, ih]
    simp [Fin.sum_univ_succ, shift]

/-- `bits_N` keeps the `N` low digits. -/
theorem val_bitsN (n v : Nat) : val (bitsN n v) = v % 2 ^ n := by
  induction n with
  | zero => simp [Nat.mod_one]
  | succ n ih =>
    rw [bitsN_succ, val_cons, length_bitsN, ih, Nat.toNat_testBit, Nat.mod_pow_succ, Nat.mul_comm,
      Nat.add_comm]

/-- Sequences of one length are told apart by their values: the head weighs more than all of the tail. -/
theorem eq_of_val_eq (q q' : Bits) (hl : q.length = q'.length) (hv : val q = val q') : q = q' := by
  induction q generalizing q' with
  | nil => exact (List.length_eq_zero_iff.mp hl.symm).symm
  | cons b q ih =>
    cases q' with
    | nil => simp at hl
    | cons b' q' =>
      replace hl : q.length = q'.length := by simpa using hl
      have hq := val_lt q
      have hq' := val_lt q'
      rw [← hl] at hq'
      rw [val_cons, val_cons, ← hl] at hv
      have hb : b = b' := by cases b <;> cases b' <;> simp at hv ⊢ <;> omega
      subst hb
      rw [ih q' hl (Nat.add_left_cancel hv)]

/-- `bits_N` undoes `val` at the sequence's own length. -/
theorem bitsN_val (q : Bits) : bitsN q.length (val q) = q :=
  eq_of_val_eq _ q (length_bitsN _ _) ((val_bitsN _ _).trans (Nat.mod_eq_of_lt (val_lt q)))

/-- Settles O20: the sum by recursion, the inverse as a remainder, uniqueness by `bitsN_val`. -/
theorem valAndBits : Obligations.ValAndBits := by
  refine ⟨val_eq_sum, fun n v hv => ⟨length_bitsN n v, ?_⟩, ?_⟩
  · rw [val_bitsN, Nat.mod_eq_of_lt hv]
  · rintro _ _ q - rfl rfl
    exact (bitsN_val q).symm

end Sys2Proof

/-! ## Commands and stream units

Every instruction is one of the two: a command ends in one of its two ways (`exec_ends`), a unit acts
on the scan of the decoder that reads it (`onScan_cases`). -/

namespace Sys2Proof

theorem WahWord.encode_toInstr (u : WahWord) :
    encode u.toInstr = .wahWord u.toInstr.width u.bits := by cases u <;> rfl

theorem BbcRecord.encode_toInstr (u : BbcRecord) : encode u.toInstr = .bbcRecord u.bits := by
  cases u <;> rfl

/-- The three formats of rule R78. -/
theorem Instr.command_or_unit (i : Instr) :
    (∃ w, encode i = .command w) ∨ (∃ u : WahWord, i = u.toInstr) ∨
      ∃ u : BbcRecord, i = u.toInstr := by
  cases i with
  | wahLiteral p => exact .inr (.inl ⟨.literal p, rfl⟩)
  | wahFill w v n => exact .inr (.inl ⟨.fill w v n, rfl⟩)
  | bbcZeroRun n => exact .inr (.inr ⟨.zeroRun n, rfl⟩)
  | bbcOneRun n => exact .inr (.inr ⟨.oneRun n, rfl⟩)
  | bbcSingleSet n => exact .inr (.inr ⟨.singleSet n, rfl⟩)
  | bbcSingleClear n => exact .inr (.inr ⟨.singleClear n, rfl⟩)
  | bbcLiteral b => exact .inr (.inr ⟨.literal b, rfl⟩)
  | bbcReserved101 => exact .inr (.inr ⟨.reserved101, rfl⟩)
  | bbcReserved110 => exact .inr (.inr ⟨.reserved110, rfl⟩)
  | bbcReserved111 => exact .inr (.inr ⟨.reserved111, rfl⟩)
  | _ => exact .inl ⟨_, rfl⟩

end Sys2Proof

namespace Sys2Proof.Machine

/-- A WAH word acts on a WAH decoder of its word size (rules R68, R69). -/
theorem exec_wahWord (u : WahWord) (s : State) :
    exec u.toInstr s = onScan (Codec.readsWahWord u.toInstr.width) (wahWordEffect u) s := by
  cases u <;> rfl

/-- A BBC record acts on a BBC decoder (rules R73, R76). -/
theorem exec_bbcRecord (u : BbcRecord) (s : State) :
    exec u.toInstr s = onScan Codec.readsBbcRecord (bbcRecordEffect u) s := by
  cases u <;> rfl

/-- What any instruction does: end as a command ends, or act as a unit on a scan. -/
theorem exec_cases (i : Instr) (s : State) :
    Ends i s (exec i s) ∨ ∃ reads effect, ∀ t, exec i t = onScan reads effect t := by
  obtain hi | ⟨u, rfl⟩ | ⟨u, rfl⟩ := i.command_or_unit
  · exact .inl (exec_ends i s hi)
  · exact .inr ⟨_, _, exec_wahWord u⟩
  · exact .inr ⟨_, _, exec_bbcRecord u⟩

/-- A command answers a next state (rule R217). -/
theorem Ends.exists_next {i : Instr} {s : State} {x : Result} (h : Ends i s x) :
    ∃ t, x = .next t := by
  cases h with
  | raised e off => exact ⟨_, rfl⟩
  | succeeded res u _ => exact ⟨_, rfl⟩

theorem onScan_ne_refused (reads : Codec → Bool) (effect : Scan → Option Scan) (s : State)
    (r : Refusal) : onScan reads effect s ≠ .refused r := by
  obtain ⟨-, e⟩ | ⟨j, -, -, -, e⟩ | ⟨j, sc, -, -, -, e⟩ := onScan_cases reads effect s <;> simp [e]

theorem exec_ne_refused (i : Instr) (s : State) (r : Refusal) : exec i s ≠ .refused r := by
  obtain h | ⟨reads, effect, h⟩ := exec_cases i s
  · obtain ⟨t, ht⟩ := h.exists_next
    simp [ht]
  · rw [h]
    exact onScan_ne_refused reads effect s r

/-! ## Reset -/

/-- Settles O1: `State.reset` is the reset state of one capacity. -/
theorem resetState : Obligations.ResetState := by
  have reset (cap : Nat) : (∀ b, (State.resetWith cap).buf b = []) ∧
      (∀ a, (State.resetWith cap).rawAt a = 0) ∧ (State.resetWith cap).errs = 0 ∧
      (State.resetWith cap).pc = 0 := by simp
  rintro s (rfl | ⟨cap, rfl⟩)
  · exact reset Config.cap
  · exact reset cap

/-! ## A decoder at work: its next unit, or its end -/

section
variable {j : Job}

theorem Job.nextUnit_of_wah {w f : Nat} (hc : j.codec = .wah w f) :
    j.nextUnit = decode (.wahWord w (j.stream.drop j.scan.pos)) := by
  simp only [Job.nextUnit, hc]

theorem Job.nextUnit_of_bbc {n : Nat} (hc : j.codec = .bbc n) :
    j.nextUnit = decode (.bbcRecord (j.stream.drop j.scan.pos)) := by
  simp only [Job.nextUnit, hc]

theorem Job.finish_of_wah {w f : Nat} (hc : j.codec = .wah w f) :
    j.finish = wahFinish w f j.stream.length j.scan := by
  simp only [Job.finish, hc]

theorem Job.finish_of_bbc {n : Nat} (hc : j.codec = .bbc n) :
    j.finish = bbcFinish n j.stream.length j.scan := by
  simp only [Job.finish, hc]

theorem runUnit_of_instr {i : Instr} (s : State) (hpos : j.scan.pos < j.stream.length)
    (hu : j.nextUnit = .instr i) : runUnit j s = exec i s := by
  simp only [runUnit, hpos, hu, if_true]

theorem runUnit_of_reject {r : Reject} (s : State) (hpos : j.scan.pos < j.stream.length)
    (hu : j.nextUnit = .reject r) : runUnit j s = .next (s.raise .malformedStream j.scan.pos) := by
  simp only [runUnit, hpos, hu, if_true, raises]

theorem runUnit_of_end (s : State) (hpos : j.stream.length ≤ j.scan.pos) :
    runUnit j s = .next (deliver j.dst j.finish s) := by
  simp only [runUnit, Nat.not_lt.mpr hpos, if_false]

/-- The word a decoder of size `w` reads is one it acts on. -/
theorem width_of_readWahWord {w : Nat} {rest : Bits} {u : WahWord}
    (h : readWahWord w rest = .unit u) : u.toInstr.width = w := by
  obtain ⟨p, rfl, hp⟩ | ⟨v, n, rfl⟩ := readWahWord_size w rest u h
  · exact hp
  · rfl

/-- The next unit of a decoder is one it acts on: a word of its size, or a record. -/
theorem Job.exec_nextUnit {i : Instr} (hu : j.nextUnit = .instr i) :
    ∃ reads effect, reads j.codec = true ∧ ∀ s, exec i s = onScan reads effect s := by
  cases hc : j.codec with
  | wah w f =>
    rw [Job.nextUnit_of_wah hc, decode] at hu
    split at hu
    · next u hr =>
      cases hu
      exact ⟨_, _, by simp [Codec.readsWahWord, width_of_readWahWord hr], exec_wahWord u⟩
    · cases hu
  | bbc n =>
    rw [Job.nextUnit_of_bbc hc, decode] at hu
    split at hu
    · next u hr =>
      cases hu
      exact ⟨_, _, rfl, exec_bbcRecord u⟩
    · cases hu

end

/-- Settles O5: the equations of `runUnit` at each codec. -/
theorem stepRunsNextUnit : Obligations.StepRunsNextUnit := by
  intro s j hj
  rw [step_of_job s j hj]
  refine ⟨fun hpos w f hc => ⟨fun u hu => ?_, fun r hr => ?_⟩,
    fun hpos n hc => ⟨fun u hu => ?_, fun r hr => ?_⟩,
    fun hpos => ⟨fun w f hc => ?_, fun n hc => ?_⟩⟩
  · exact runUnit_of_instr s hpos (by simp only [Job.nextUnit_of_wah hc, decode, hu])
  · exact runUnit_of_reject (r := r) s hpos (by simp only [Job.nextUnit_of_wah hc, decode, hr])
  · exact runUnit_of_instr s hpos (by simp only [Job.nextUnit_of_bbc hc, decode, hu])
  · exact runUnit_of_reject (r := r) s hpos (by simp only [Job.nextUnit_of_bbc hc, decode, hr])
  · rw [runUnit_of_end s hpos, Job.finish_of_wah hc]
  · rw [runUnit_of_end s hpos, Job.finish_of_bbc hc]

/-! ## Where the model stops -/

/-- A decoder at work answers every move: the unit it reads is one it acts on. -/
theorem runUnit_exists_next (s : State) (j : Job) (hj : s.job = some j) :
    ∃ t, runUnit j s = .next t := by
  by_cases hpos : j.scan.pos < j.stream.length
  · cases hu : j.nextUnit with
    | reject r => exact ⟨_, runUnit_of_reject s hpos hu⟩
    | instr i =>
      obtain ⟨reads, effect, hreads, hexec⟩ := Job.exec_nextUnit hu
      rw [runUnit_of_instr s hpos hu, hexec]
      obtain ⟨hnot, -⟩ | ⟨j', -, -, -, e⟩ | ⟨j', sc, -, -, -, e⟩ := onScan_cases reads effect s
      · simp [hnot j hj] at hreads
      · exact ⟨_, e⟩
      · exact ⟨_, e⟩
  · exact ⟨_, runUnit_of_end s (Nat.le_of_not_lt hpos)⟩

/-- A step either is at the end of the host's list with no decoder at work, and stops, or it answers a
next state. -/
theorem step_outcome (s : State) :
    ((s.job = none ∧ s.prog.length ≤ s.pc) ∧ step s = .fault .runEnded) ∨
      (¬ (s.job = none ∧ s.prog.length ≤ s.pc) ∧ ∃ t, step s = .next t) := by
  cases hj : s.job with
  | some j =>
    rw [step_of_job s j hj]
    exact .inr ⟨by simp, runUnit_exists_next s j hj⟩
  | none =>
    by_cases hpc : s.prog.length ≤ s.pc
    · exact .inl ⟨⟨rfl, hpc⟩, by simp only [step, hj, State.pending, List.getElem?_eq_none hpc]⟩
    · have hp := List.getElem?_eq_getElem (Nat.lt_of_not_le hpc)
      obtain ⟨t, r, ht, -⟩ := everyCommandAnswers s _ hj hp
      exact .inr ⟨fun h => hpc h.2, t, ht⟩

theorem step_fault_iff (s : State) (r : Fault) :
    step s = .fault r ↔ r = .runEnded ∧ s.job = none ∧ s.prog.length ≤ s.pc := by
  obtain ⟨h, e⟩ | ⟨h, t, e⟩ := step_outcome s
  · simp [e, h, eq_comm]
  · simp [e, h]

theorem step_ne_refused (s : State) (r : Refusal) : step s ≠ .refused r := by
  obtain ⟨-, e⟩ | ⟨-, t, e⟩ := step_outcome s <;> simp [e]

/-- `i` is a unit of a stream that no decoder of its format and word size reads. -/
def Unread (i : Instr) (s : State) : Prop :=
  (∃ p : Bits, i = .wahLiteral p ∧ ∀ j f, s.job = some j → j.codec ≠ .wah (p.length + 1) f) ∨
  (∃ w v n, i = .wahFill w v n ∧ ∀ j f, s.job = some j → j.codec ≠ .wah w f) ∨
  (∃ u : BbcRecord, i = u.toInstr ∧ ∀ j m, s.job = some j → j.codec ≠ .bbc m)

theorem not_unread_of_command {i : Instr} (s : State) (hi : ∃ w, encode i = .command w) :
    ¬ Unread i s := by
  obtain ⟨w, hw⟩ := hi
  rintro (⟨p, rfl, -⟩ | ⟨w', v, n, rfl, -⟩ | ⟨u, rfl, -⟩)
  · cases hw
  · cases hw
  · cases u.encode_toInstr.symm.trans hw

theorem unread_wahWord_iff (u : WahWord) (s : State) :
    Unread u.toInstr s ↔
      ∀ j, s.job = some j → j.codec.readsWahWord u.toInstr.width = false := by
  simp only [Codec.readsWahWord_eq_false]
  constructor
  · rintro (⟨p, e, h⟩ | ⟨w, v, n, e, h⟩ | ⟨r, e, -⟩)
    · rw [e]; exact fun j hj f => h j f hj
    · rw [e]; exact fun j hj f => h j f hj
    · cases (u.encode_toInstr.symm.trans (congrArg encode e)).trans r.encode_toInstr
  · intro h
    cases u with
    | literal p => exact .inl ⟨p, rfl, fun j f hj => h j hj f⟩
    | fill w v n => exact .inr (.inl ⟨w, v, n, rfl, fun j f hj => h j hj f⟩)

theorem unread_bbcRecord_iff (u : BbcRecord) (s : State) :
    Unread u.toInstr s ↔ ∀ j, s.job = some j → j.codec.readsBbcRecord = false := by
  simp only [Codec.readsBbcRecord_eq_false]
  constructor
  · rintro (⟨p, e, -⟩ | ⟨w, v, n, e, -⟩ | ⟨r, -, h⟩)
    · cases u.encode_toInstr.symm.trans (congrArg encode e)
    · cases u.encode_toInstr.symm.trans (congrArg encode e)
    · exact fun j hj m => h j m hj
  · exact fun h => .inr (.inr ⟨u, rfl, fun j m hj => h j hj m⟩)

theorem exec_fault_iff (i : Instr) (s : State) (r : Fault) :
    exec i s = .fault r ↔ r = .noDecoderReading ∧ Unread i s := by
  obtain hi | ⟨u, rfl⟩ | ⟨u, rfl⟩ := i.command_or_unit
  · obtain ⟨t, ht⟩ := (exec_ends i s hi).exists_next
    simp [ht, not_unread_of_command s hi]
  · rw [exec_wahWord, onScan_fault_iff, unread_wahWord_iff]
  · rw [exec_bbcRecord, onScan_fault_iff, unread_bbcRecord_iff]

/-- Settles O6: the two characterisations of a fault, and no refusal. -/
theorem whereTheModelStops : Obligations.WhereTheModelStops :=
  ⟨step_fault_iff, exec_fault_iff, step_ne_refused, exec_ne_refused⟩

/-! ## `ERRS` after a success -/

/-- The status of an error is not the status of success (rule R66). -/
theorem ErrorKind.status_ne_zero (e : ErrorKind) : BitVec.ofNat 3 e.code ≠ 0 := by
  cases e <;> decide

theorem raise_status_ne_zero (s : State) (e : ErrorKind) (off : Nat) {r : Response}
    (hr : (s.raise e off).rsp = some r) : r.status ≠ 0 := by
  cases hr
  exact e.status_ne_zero

/-- Only `CLR_ERRS` commits to `ERRS`. -/
theorem Commits.errs_eq {i : Instr} {s u : State} (h : Commits i s u) :
    u.errs = s.errs ∨ (i = .clrErrs ∧ u.errs = 0) := by
  cases h with
  | nothing => exact .inl rfl
  | buffer d q _ _ => exact .inl (s.setBuf_errs d q)
  | raw a ys _ _ => exact .inl rfl
  | errs clears => exact .inr ⟨clears, rfl⟩

/-- Settles O9: a status of 0 leaves the succeeding end, whose commit is one of four. -/
theorem successKeepsErrs : Obligations.SuccessKeepsErrs := by
  intro s t w r hj hp ht hrsp hr
  obtain ⟨i, hw, he⟩ | ⟨x, -, hx⟩ := step_pending_cases s w hj hp
  · rw [ht] at he
    cases he with
    | raised e off => exact absurd hr (raise_status_ne_zero s e off hrsp)
    | succeeded res u hc =>
      obtain h | ⟨rfl, h⟩ := hc.errs_eq
      · exact .inl h
      · exact .inr ⟨hw, h⟩
  · cases ht.symm.trans hx
    exact absurd hr (raise_status_ne_zero s _ _ hrsp)

/-! ## What an instruction writes -/

/-- What instruction `i` leaves alone from `s` to `t` (rule R20, "written by"). -/
def WritesItsOwn (i : Instr) (s t : State) : Prop :=
  SameHost s t ∧ (∀ b, destOf i ≠ some b → t.buf b = s.buf b) ∧ (writesRaw i = false → SameRaw s t)

theorem WritesItsOwn.raise (i : Instr) (s : State) (e : ErrorKind) (off : Nat) :
    WritesItsOwn i s (s.raise e off) :=
  ⟨⟨rfl, rfl⟩, fun b _ => s.raise_buf e off b, fun _ _ => rfl⟩

theorem WritesItsOwn.succeed {i : Instr} {s u : State} (h : WritesItsOwn i s u) (res : Nat) :
    WritesItsOwn i s (u.succeed res) := by
  obtain ⟨host, bufs, raw⟩ := h
  exact ⟨host, fun b hb => (u.succeed_buf res b).trans (bufs b hb), raw⟩

theorem Commits.writesItsOwn {i : Instr} {s u : State} (h : Commits i s u) :
    WritesItsOwn i s u := by
  refine ⟨h.sameHost, ?_⟩
  cases h with
  | nothing => exact ⟨fun _ _ => rfl, fun _ _ => rfl⟩
  | buffer d q dest _ =>
    refine ⟨fun b hb => s.buf_setBuf_other d b q ?_, fun _ a => by simp [State.rawAt]⟩
    rintro rfl
    exact hb dest
  | raw a ys writes _ =>
    exact ⟨fun b _ => s.setRaw_buf _ b, fun h => by simp [writes] at h⟩
  | errs _ => exact ⟨fun b _ => s.setErrs_buf _ b, fun _ _ => rfl⟩

theorem buf_with_job (s : State) (j : Option Job) (b : BufId) :
    State.buf { s with job := j } b = s.buf b := by cases b <;> rfl

/-- A unit of a stream writes no buffer and no byte of `RAW`. -/
theorem onScan_writesItsOwn (i : Instr) {reads : Codec → Bool} {effect : Scan → Option Scan}
    {s t : State} (h : onScan reads effect s = .next t) : WritesItsOwn i s t := by
  obtain ⟨-, e⟩ | ⟨j, -, -, -, e⟩ | ⟨j, sc, -, -, -, e⟩ := onScan_cases reads effect s
  · cases e.symm.trans h
  · cases e.symm.trans h
    exact .raise i s _ _
  · cases e.symm.trans h
    exact ⟨⟨rfl, rfl⟩, fun b _ => buf_with_job s _ b, fun _ _ => rfl⟩

/-- Settles O12: a raise writes nothing, a success what it commits, a unit the scan. -/
theorem onlyDestinationsChange : Obligations.OnlyDestinationsChange := by
  intro i s t h
  change WritesItsOwn i s t
  obtain he | ⟨reads, effect, hu⟩ := exec_cases i s
  · rw [h] at he
    cases he with
    | raised e off => exact .raise i s e off
    | succeeded res u hc => exact hc.writesItsOwn.succeed res
  · exact onScan_writesItsOwn i ((hu s).symm.trans h)

/-! ## Nothing reads `ERRS` but `RD_ERRS`

Outcomes are compared with `ERRS` taken out of their next states. -/

namespace State

@[simp] theorem setErrs_setErrs (s : State) (e e' : BitVec 5) :
    (s.setErrs e).setErrs e' = s.setErrs e' := rfl

@[simp] theorem setBuf_setErrs (s : State) (e : BitVec 5) (d : BufId) (q : Bits) :
    (s.setErrs e).setBuf d q = (s.setBuf d q).setErrs e := by cases d <;> rfl

@[simp] theorem setRaw_setErrs (s : State) (e : BitVec 5) (m : List Host.Cell) :
    (s.setErrs e).setRaw m = (s.setRaw m).setErrs e := rfl

@[simp] theorem rawAt_setErrs (s : State) (e : BitVec 5) (a : Nat) :
    (s.setErrs e).rawAt a = s.rawAt a := rfl

@[simp] theorem addrExists_setErrs (s : State) (e : BitVec 5) (a : Operand) :
    addrExists a (s.setErrs e) = addrExists a s := rfl

end State

/-- An outcome with `ERRS` of the next state set to 0. -/
def withoutErrs : Result → Result
  | .next t => .next (t.setErrs 0)
  | .fault r => .fault r
  | .refused r => .refused r

theorem withoutErrs_eq_next {x : Result} {u : State} (h : withoutErrs x = .next u) :
    ∃ t, x = .next t ∧ t.setErrs 0 = u := by
  cases x with
  | next t =>
    cases h
    exact ⟨t, rfl, rfl⟩
  | fault r => cases h
  | refused r => cases h

section
variable (s : State) (e : BitVec 5)

@[simp] theorem withoutErrs_raises (k : ErrorKind) (off : Nat) :
    withoutErrs (raises k off (s.setErrs e)) = withoutErrs (raises k off s) := rfl

@[simp] theorem withoutErrs_succeeds (res : Nat) :
    withoutErrs (succeeds res (s.setErrs e)) = withoutErrs (succeeds res s) := rfl

@[simp] theorem withoutErrs_deliver (d : BufId) (r : DecodeResult Reading) :
    withoutErrs (.next (deliver d r (s.setErrs e))) = withoutErrs (.next (deliver d r s)) := by
  cases r with
  | malformed off => rfl
  | ok g =>
    simp only [deliver, State.setErrs_cap, State.setBuf_setErrs]
    split_ifs
    · rfl
    · rfl

theorem withoutErrs_onScan (reads : Codec → Bool) (effect : Scan → Option Scan) :
    withoutErrs (onScan reads effect (s.setErrs e)) = withoutErrs (onScan reads effect s) := by
  simp only [onScan, State.setErrs_job]
  cases s.job with
  | none => rfl
  | some j =>
    by_cases hr : reads j.codec = true
    · simp only [hr, if_true]
      cases effect j.scan with
      | none => rfl
      | some sc => rfl
    · simp only [hr]; rfl

/-- Every test and every committed value of a command but `RD_ERRS` is of state other than `ERRS`. -/
theorem withoutErrs_exec (i : Instr) (hi : i ≠ .rdErrs) :
    withoutErrs (exec i (s.setErrs e)) = withoutErrs (exec i s) := by
  obtain hcmd | ⟨u, rfl⟩ | ⟨u, rfl⟩ := i.command_or_unit
  · cases i with
    | bsClear d => simp [exec, execBsClear]
    | bsLen b => simp [exec, execBsLen]
    | bsGet b n =>
      simp only [exec, execBsGet, State.setErrs_buf]
      cases (s.buf b)[opVal n]? with
      | none => rfl
      | some bit => rfl
    | bsAppend d bit => simp [exec, execBsAppend, apply_ite withoutErrs]
    | bsSlice d b start stop => simp [exec, execBsSlice, apply_ite withoutErrs]
    | bsFromBytes d n => simp [exec, execBsFromBytes, apply_ite withoutErrs]
    | bsToBytes b => simp [exec, execBsToBytes]
    | reservedOp7 d b a0 a1 => rfl
    | wahCompress d b w => simp [exec, execWahCompress, apply_ite withoutErrs]
    | wahDecompress d b w f => simp [exec, execWahDecompress, apply_ite withoutErrs]
    | bbcCompress d b => simp [exec, execBbcCompress, apply_ite withoutErrs]
    | bbcDecompress d b n => simp [exec, execBbcDecompress, apply_ite withoutErrs]
    | rawWr addr byte => simp [exec, execRawWr, apply_ite withoutErrs]
    | rawRd addr => simp [exec, execRawRd, apply_ite withoutErrs]
    | rdErrs => exact absurd rfl hi
    | clrErrs => rfl
    | _ =>
      obtain ⟨w, hw⟩ := hcmd
      cases hw
  · rw [exec_wahWord, exec_wahWord, withoutErrs_onScan]
  · rw [exec_bbcRecord, exec_bbcRecord, withoutErrs_onScan]

end

/-- Settles O10: the two outcomes agree without `ERRS`. -/
theorem nothingDependsOnErrs : Obligations.NothingDependsOnErrs := by
  intro i s t e hi h
  refine withoutErrs_eq_next ?_
  rw [withoutErrs_exec s e i hi, h, withoutErrs]

end Sys2Proof.Machine

/-! ## Units, and the byte form (rules R42, R43) -/

namespace Sys2Proof

theorem le_ceilDiv_mul (a b : Nat) (h : 1 ≤ b) : a ≤ ceilDiv a b * b :=
  (ceilDiv_le_iff a b _ h).mp le_rfl

/-- Unit `j` is what `q` has from position `j * u` on, padded. -/
theorem getElem?_unitsOf (u k : Nat) (q : Bits) (j : Nat) (hj : j < k) :
    (unitsOf u k q)[j]? = some (padUnit u (slice q (j * u) (j * u + u))) := by
  induction k generalizing q j with
  | zero => omega
  | succ k ih =>
    cases j with
    | zero => simp [unitsOf, slice]
    | succ j =>
      rw [unitsOf, List.getElem?_cons_succ, ih _ j (by omega)]
      simp [slice, Nat.succ_mul, Nat.add_comm u]

/-- Padding a unit is cutting it from a padded sequence. -/
theorem padUnit_slice (u a n : Nat) (q : Bits) (h : a + u ≤ q.length + n) :
    padUnit u (slice q a (a + u)) = slice (q ++ rep false n) a (a + u) := by
  simp only [padUnit, slice, rep, List.drop_append, List.take_append, List.drop_replicate,
    List.take_replicate, List.length_take, List.length_drop]
  congr 2
  omega

/-- The units, one after the other, are `q` and its padding. -/
theorem flatten_unitsOf (u k : Nat) (q : Bits) (h : q.length ≤ k * u) :
    (unitsOf u k q).flatten = q ++ rep false (k * u - q.length) := by
  induction k generalizing q with
  | zero => simp_all [unitsOf]
  | succ k ih =>
    rw [Nat.succ_mul] at h ⊢
    rw [unitsOf, List.flatten_cons, ih _ (by rw [List.length_drop]; omega), List.length_drop]
    by_cases hu : u ≤ q.length
    · rw [padUnit, List.length_take_of_le hu, Nat.sub_self, rep_zero, List.append_nil,
        ← List.append_assoc, List.take_append_drop]
      congr 2
      omega
    · have hq : q.length ≤ u := Nat.le_of_not_le hu
      rw [List.take_of_length_le hq, List.drop_of_length_le hq, padUnit, List.nil_append,
        List.append_assoc, ← rep_add]
      congr 2
      omega

/-- Unit `j` of a partition: bits `j * u` to `j * u + u` of the zero-padded sequence (rules R42, R112). -/
theorem getElem?_partition (u : Nat) (q : Bits) (j : Nat) (hu : 1 ≤ u) (hj : j < ceilDiv q.length u) :
    (partition u q)[j]? =
      some (slice (q ++ rep false (ceilDiv q.length u * u - q.length)) (j * u) (j * u + u)) := by
  have hlen := le_ceilDiv_mul q.length u hu
  have hend : (j + 1) * u ≤ ceilDiv q.length u * u := Nat.mul_le_mul_right u hj
  rw [partition, getElem?_unitsOf _ _ _ _ hj, padUnit_slice]
  rw [Nat.succ_mul] at hend
  omega

theorem flatten_partition (u : Nat) (q : Bits) (hu : 1 ≤ u) :
    (partition u q).flatten = q ++ rep false (ceilDiv q.length u * u - q.length) :=
  flatten_unitsOf u _ q (le_ceilDiv_mul q.length u hu)

theorem length_of_mem_partition {u : Nat} {q g : Bits} (h : g ∈ partition u q) : g.length = u :=
  length_of_mem_unitsOf u _ q g h

theorem toNat_byteOf (g : Bits) (h : g.length = 8) : (byteOf g).toNat = val g := by
  have := val_lt g
  rw [h] at this
  simpa [byteOf] using this

theorem bitsOfByte_byteOf (g : Bits) (h : g.length = 8) : bitsOfByte (byteOf g) = g := by
  rw [bitsOfByte, toNat_byteOf g h, ← h, bitsN_val]

/-- The bits of the packed bytes are the units they were packed from. -/
theorem flatMap_bitsOfByte_pack (q : Bits) : (pack q).flatMap bitsOfByte = (partition 8 q).flatten := by
  have same : ∀ g ∈ partition 8 q, bitsOfByte (byteOf g) = id g := fun g hg =>
    bitsOfByte_byteOf g (length_of_mem_partition hg)
  rw [pack, List.flatMap_map, List.flatMap_def, List.map_congr_left same, List.map_id]

theorem unpack_pack (q : Bits) : unpack (pack q) q.length = q := by
  rw [unpack, flatMap_bitsOfByte_pack, flatten_partition 8 q (by decide), List.take_left]

theorem getElem?_bitsN (n v i : Nat) (h : i < n) : (bitsN n v)[i]? = some (v.testBit (n - 1 - i)) := by
  induction n generalizing i with
  | zero => omega
  | succ n ih =>
    cases i with
    | zero => simp
    | succ i =>
      rw [bitsN_succ, List.getElem?_cons_succ, ih i (by omega)]
      congr 2
      omega

/-- Bit `i` of a byte string: the digit of weight `2^(7 - i mod 8)` of byte `i div 8` (rule R43). -/
theorem getElem?_flatMap_bitsOfByte (ys : List Byte) (i : Nat) :
    (ys.flatMap bitsOfByte)[i]? = (ys[i / 8]?).map fun y => y.toNat.testBit (7 - i % 8) := by
  induction ys generalizing i with
  | nil => simp
  | cons y ys ih =>
    rw [List.flatMap_cons]
    by_cases h : i < 8
    · rw [List.getElem?_append_left (by simpa [bitsOfByte] using h), bitsOfByte, getElem?_bitsN _ _ _ h,
        Nat.div_eq_of_lt h, Nat.mod_eq_of_lt h]
      rfl
    · obtain ⟨i, rfl⟩ := Nat.exists_eq_add_of_le' (Nat.le_of_not_lt h)
      rw [List.getElem?_append_right (by simp [bitsOfByte])]
      simp [bitsOfByte, ih]

theorem getElem?_unpack (ys : List Byte) (n i : Nat) (h : i < n) :
    (unpack ys n)[i]? = (ys[i / 8]?).map fun y => decide (y.toNat / 2 ^ (7 - i % 8) % 2 = 1) := by
  simp only [unpack, List.getElem?_take_of_lt h, getElem?_flatMap_bitsOfByte,
    Nat.testBit_eq_decide_div_mod_eq]

/-- Byte `j` of a packed sequence has the value of its eight bits, the zero padding among them (R42). -/
theorem exists_getElem?_pack (q : Bits) (j : Nat) (hj : j < ceilDiv q.length 8) :
    ∃ y, (pack q)[j]? = some y ∧ y.toNat =
      val (slice (q ++ rep false (8 * ceilDiv q.length 8 - q.length)) (8 * j) (8 * j + 8)) := by
  have hunit := getElem?_partition 8 q j (by decide) hj
  rw [Nat.mul_comm _ 8, Nat.mul_comm j] at hunit
  refine ⟨_, by rw [pack, List.getElem?_map, hunit]; rfl, toNat_byteOf _ ?_⟩
  exact length_of_mem_partition (List.mem_of_getElem? hunit)

/-- Settles O21: `pack` by the units of a partition, `unpack` by the digits of a byte. -/
theorem packAndUnpack : Obligations.PackAndUnpack := by
  refine ⟨fun q => ⟨length_pack q, exists_getElem?_pack q⟩, fun ys n hys => ⟨?_, getElem?_unpack ys n⟩,
    unpack_pack⟩
  apply Machine.length_unpack
  rw [hys, Nat.mul_comm]
  exact le_ceilDiv_mul n 8 (by decide)

end Sys2Proof

namespace Sys2Proof

/-- A record has a tag at least (rule R72). -/
theorem BbcRecord.width_pos (u : BbcRecord) : 0 < u.toInstr.width := by
  cases u <;> simp [BbcRecord.toInstr, Instr.width]

end Sys2Proof

namespace Sys2Proof.Machine

/-! ## A decoder at work, to the end of its command

Each pass of a decoder's loop is one step of the decoder at work, so that the loop's induction on its
bound is an induction on the run. -/

/-- The word that is read moves the scan on by its size (rule R116). -/
theorem pos_of_wahWordEffect {u : WahWord} {sc sc' : Scan} (h : wahWordEffect u sc = some sc') :
    sc'.pos = sc.pos + u.toInstr.width := by
  cases u with
  | literal p =>
    cases h
    rfl
  | fill w v n =>
    simp only [wahWordEffect, wahFillEffect] at h
    split at h
    · cases h
    · cases h
      rfl

theorem pos_of_runEffect {y : Byte} {n : BitVec 8} {sc sc' : Scan} (h : runEffect y n sc = some sc') :
    sc'.pos = sc.pos + 11 := by
  unfold runEffect at h
  split at h
  · cases h
  · cases h
    rfl

/-- The record that is read moves the scan on by what its tag says (rules R75, R145). -/
theorem pos_of_bbcRecordEffect {u : BbcRecord} {sc sc' : Scan}
    (h : bbcRecordEffect u sc = some sc') : sc'.pos = sc.pos + u.toInstr.width := by
  cases u with
  | zeroRun n => exact pos_of_runEffect h
  | oneRun n => exact pos_of_runEffect h
  | reserved101 => cases h
  | reserved110 => cases h
  | reserved111 => cases h
  | _ =>
    cases h
    rfl

theorem run_succ {s t : State} (k : Nat) (h : step s = .next t) :
    core.run (k + 1) s = core.run k t := by
  simp only [Host.Core.run, core, h]

/-- The end of a command does not depend on the decoder it leaves behind (rule R28). -/
theorem deliver_with_job (d : BufId) (r : DecodeResult Reading) (s : State) (oj : Option Job) :
    deliver d r { s with job := oj } = deliver d r s := by
  cases r with
  | malformed off => rfl
  | ok g => cases d <;> rfl

/-- What a decoder answers whose loop ended so: with a malformed unit, or with its last test still to make
(rules R116, R145). -/
def Job.conclude (j : Job) : DecodeResult Scan → DecodeResult Reading
  | .malformed off => .malformed off
  | .ok sc => Job.finish { j with scan := sc }

theorem wahRead_eq_conclude (w f : Nat) (d : BufId) (c : Bits) : wahRead c f w =
    Job.conclude ⟨.wah w f, d, c, Scan.start⟩ (wahLoop w c c.length Scan.start) := by
  unfold wahRead
  cases wahLoop w c c.length Scan.start <;> rfl

theorem bbcRead_eq_conclude (n : Nat) (d : BufId) (c : Bits) : bbcRead c n =
    Job.conclude ⟨.bbc n, d, c, Scan.start⟩ (bbcLoop c c.length Scan.start) := by
  unfold bbcRead
  cases bbcLoop c c.length Scan.start <;> rfl

/-- Stepped unit by unit, the decoder `j` reaches the state its command answers when its loop ends in
`r`. -/
def Job.StepsTo (j : Job) (r : DecodeResult Scan) : Prop :=
  ∀ s : State, ∃ k, core.run k { s with job := some j } = .next (deliver j.dst (j.conclude r) s)

namespace Job.StepsTo
variable {j : Job}

theorem of_end (hpos : j.stream.length ≤ j.scan.pos) : j.StepsTo (.ok j.scan) := by
  intro s
  refine ⟨1, run_succ 0 ?_⟩
  rw [step_of_job _ j rfl, runUnit_of_end _ hpos, deliver_with_job]
  rfl

theorem of_reject {r : Reject} (hpos : j.scan.pos < j.stream.length) (hu : j.nextUnit = .reject r) :
    j.StepsTo (.malformed j.scan.pos) := by
  intro s
  refine ⟨1, run_succ 0 ?_⟩
  rw [step_of_job _ j rfl, runUnit_of_reject _ hpos hu]
  rfl

section
variable {i : Instr} {reads : Codec → Bool} {effect : Scan → Option Scan}
  (hpos : j.scan.pos < j.stream.length) (hu : j.nextUnit = .instr i)
  (hexec : ∀ s, exec i s = onScan reads effect s) (hreads : reads j.codec = true)
include hpos hu hexec hreads

theorem of_malformed_unit (he : effect j.scan = none) : j.StepsTo (.malformed j.scan.pos) := by
  intro s
  refine ⟨1, run_succ 0 ?_⟩
  rw [step_of_job _ j rfl, runUnit_of_instr _ hpos hu, hexec]
  simp only [onScan, hreads, he, if_true]
  rfl

theorem of_unit {sc : Scan} {r : DecodeResult Scan} (he : effect j.scan = some sc)
    (hr : Job.StepsTo { j with scan := sc } r) : j.StepsTo r := by
  intro s
  obtain ⟨k, hk⟩ := hr s
  have hstep : step { s with job := some j } = .next { s with job := some { j with scan := sc } } := by
    rw [step_of_job _ j rfl, runUnit_of_instr _ hpos hu, hexec]
    simp only [onScan, hreads, he, if_true]
  exact ⟨k + 1, (run_succ k hstep).trans hk⟩

end
end Job.StepsTo

/-- The loop of rule R116 with a pass a bit left is the decoder's run: each pass is one step. -/
theorem wahLoop_stepsTo (w f : Nat) (d : BufId) (c : Bits) (hw : 1 ≤ w) (fuel : Nat) (sc : Scan)
    (hfuel : c.length ≤ sc.pos + fuel) :
    Job.StepsTo ⟨.wah w f, d, c, sc⟩ (wahLoop w c fuel sc) := by
  induction fuel generalizing sc with
  | zero => exact .of_end hfuel
  | succ fuel ih =>
    rw [wahLoop]
    split
    · next hpos =>
      split
      · next r hread =>
        exact .of_reject (r := r) hpos (by simp only [Job.nextUnit, decode, hread])
      · next u hread =>
        have hu : Job.nextUnit ⟨.wah w f, d, c, sc⟩ = .instr u.toInstr := by
          simp only [Job.nextUnit, decode, hread]
        have hwidth := width_of_readWahWord hread
        have hreads : Codec.readsWahWord u.toInstr.width (.wah w f) = true := by
          simp [Codec.readsWahWord, hwidth]
        split
        · next he => exact .of_malformed_unit hpos hu (exec_wahWord u) hreads he
        · next sc' he =>
          refine .of_unit hpos hu (exec_wahWord u) hreads he (ih sc' ?_)
          have := pos_of_wahWordEffect he
          omega
    · next hpos => exact .of_end (Nat.le_of_not_lt hpos)

/-- The same of the loop of rule R145. -/
theorem bbcLoop_stepsTo (n : Nat) (d : BufId) (c : Bits) (fuel : Nat) (sc : Scan)
    (hfuel : c.length ≤ sc.pos + fuel) : Job.StepsTo ⟨.bbc n, d, c, sc⟩ (bbcLoop c fuel sc) := by
  induction fuel generalizing sc with
  | zero => exact .of_end hfuel
  | succ fuel ih =>
    rw [bbcLoop]
    split
    · next hpos =>
      split
      · next r hread =>
        exact .of_reject (r := r) hpos (by simp only [Job.nextUnit, decode, hread])
      · next u hread =>
        have hu : Job.nextUnit ⟨.bbc n, d, c, sc⟩ = .instr u.toInstr := by
          simp only [Job.nextUnit, decode, hread]
        split
        · next he => exact .of_malformed_unit hpos hu (exec_bbcRecord u) rfl he
        · next sc' he =>
          refine .of_unit hpos hu (exec_bbcRecord u) rfl he (ih sc' ?_)
          have := pos_of_bbcRecordEffect he
          have := u.width_pos
          omega
    · next hpos => exact .of_end (Nat.le_of_not_lt hpos)

theorem execWahDecompress_of_domain {d b : BufId} {w : Operand} (f : Operand) (s : State) (hd : d ≠ b)
    (h2 : 2 ≤ w.toNat) (h64 : w.toNat ≤ 64) : execWahDecompress d b w f s =
      .next (deliver d (wahRead (s.buf b) f.toNat w.toNat) s) := by
  simp [execWahDecompress, hd, wordSizeInDomain, opVal, h2, h64]

theorem execBbcDecompress_of_ne {d b : BufId} (n : Operand) (s : State) (hd : d ≠ b) :
    execBbcDecompress d b n s = .next (deliver d (bbcRead (s.buf b) n.toNat) s) := by
  simp [execBbcDecompress, hd, opVal]

/-- Settles O56: the command delivers what its loop ends in, and the decoder's run reaches it. -/
theorem decompressIsItsUnits : Obligations.DecompressIsItsUnits := by
  constructor
  · intro s d b w f _ hd h2 h64
    obtain ⟨k, hk⟩ := wahLoop_stepsTo w.toNat f.toNat d (s.buf b) (by omega) (s.buf b).length Scan.start
      (by simp) s
    rw [← wahRead_eq_conclude] at hk
    exact ⟨k, _, execWahDecompress_of_domain f s hd h2 h64, hk⟩
  · intro s d b n _ hd
    obtain ⟨k, hk⟩ := bbcLoop_stepsTo n.toNat d (s.buf b) (s.buf b).length Scan.start (by simp) s
    rw [← bbcRead_eq_conclude] at hk
    exact ⟨k, _, execBbcDecompress_of_ne n s hd, hk⟩

end Sys2Proof.Machine

/-! ## The command word and its fields (rules R60 to R64)

A command word is its five fields, an instruction decodes from a word exactly if the word is its
encoding, and the rows of the opcode table are read field by field. -/

namespace Sys2Proof

@[simp] theorem BufId.ofField_field (b : BufId) : BufId.ofField b.field = b := by cases b <;> rfl

@[simp] theorem BufId.field_ofField (f : BitVec 2) : (BufId.ofField f).field = f := by
  revert f
  decide

theorem bufNumber_ofField (f : BitVec 2) : Machine.bufNumber (BufId.ofField f) = f.toNat := by
  revert f
  decide

/-- The sum of rule R60 fits 136 bits. -/
theorem toNat_wordOf (f : CmdFields) : (wordOf f).toNat =
    f.op.toNat + f.d.toNat * 2 ^ 4 + f.s.toNat * 2 ^ 6 + f.a0.toNat * 2 ^ 8 + f.a1.toNat * 2 ^ 72 := by
  rw [wordOf, BitVec.toNat_ofNat, Nat.mod_eq_of_lt]
  omega

@[simp] theorem fieldsOf_wordOf (f : CmdFields) : fieldsOf (wordOf f) = f := by
  obtain ⟨op, d, s, a0, a1⟩ := f
  rw [fieldsOf, CmdFields.mk.injEq]
  refine ⟨?_, ?_, ?_, ?_, ?_⟩ <;>
    · apply BitVec.eq_of_toNat_eq
      rw [BitVec.extractLsb'_toNat, toNat_wordOf, Nat.shiftRight_eq_div_pow]
      dsimp only
      omega

@[simp] theorem wordOf_fieldsOf (w : CmdWord) : wordOf (fieldsOf w) = w := by
  apply BitVec.eq_of_toNat_eq
  simp only [toNat_wordOf, fieldsOf, BitVec.extractLsb'_toNat, Nat.shiftRight_eq_div_pow]
  omega

theorem eq_iff_fieldsOf_eq (w w' : CmdWord) : w = w' ↔ fieldsOf w = fieldsOf w' :=
  (Function.LeftInverse.injective wordOf_fieldsOf).eq_iff.symm

theorem commandWord_eq_iff (op : BitVec 4) (d s : BitVec 2) (a0 a1 : Operand) (w : CmdWord) :
    commandWord op d s a0 a1 = .command w ↔ fieldsOf w = ⟨op, d, s, a0, a1⟩ := by
  rw [commandWord, Encoded.command.injEq, eq_iff_fieldsOf_eq, fieldsOf_wordOf, eq_comm]

/-- The fields a command does not use are zero in the word, as they are in its encoding (rule R64). -/
theorem encode_of_decodeFields {f : CmdFields} {i : Instr} (h : decodeFields f = .instr i) :
    encode i = .command (wordOf f) := by
  obtain ⟨⟨op, hop⟩, d, s, a0, a1⟩ := f
  interval_cases op <;>
    · obtain ⟨hzero, rfl⟩ := (ifUnusedZero_eq_instr _ _ _ _).mp h
      simp only [Bool.and_eq_true, beq_iff_eq] at hzero
      simp only [encode, commandWord, BufId.field_ofField, hzero]
      rfl

theorem decodeCommand_of_encode {w : CmdWord} {i : Instr} (h : encode i = .command w) :
    decodeCommand w = .instr i := by
  cases i <;> simp only [encode, commandWord_eq_iff, reduceCtorEq] at h <;>
    simp [decodeCommand, h, decodeFields, ifUnusedZero]

/-- Decoding and encoding of command words are inverse to each other. -/
theorem decodeCommand_eq_instr_iff (w : CmdWord) (i : Instr) :
    decodeCommand w = .instr i ↔ encode i = .command w :=
  ⟨fun h => by rw [encode_of_decodeFields h, wordOf_fieldsOf], decodeCommand_of_encode⟩

/-- Settles O14: one direction of `decodeCommand_eq_instr_iff`. -/
theorem commandWordsAreCanonical : Obligations.CommandWordsAreCanonical :=
  fun w i => (decodeCommand_eq_instr_iff w i).mp

/-! ### The opcode table (rule R62) -/

/-! `BitVec.and_allOnes` at the widths of the fields, in the literals a mask's fields compute to. -/

@[simp] theorem and_ones2 (x : BitVec 2) : x &&& 3#2 = x := BitVec.and_allOnes
@[simp] theorem and_ones4 (x : BitVec 4) : x &&& 15#4 = x := BitVec.and_allOnes
@[simp] theorem and_ones64 (x : Operand) : x &&& 0xFFFFFFFFFFFFFFFF#64 = x := BitVec.and_allOnes

/-- A word is masked and matched field by field. -/
theorem and_eq_iff_fields (w mask pattern : CmdWord) : w &&& mask = pattern ↔
    (fieldsOf w).op &&& (fieldsOf mask).op = (fieldsOf pattern).op ∧
    (fieldsOf w).d &&& (fieldsOf mask).d = (fieldsOf pattern).d ∧
    (fieldsOf w).s &&& (fieldsOf mask).s = (fieldsOf pattern).s ∧
    (fieldsOf w).a0 &&& (fieldsOf mask).a0 = (fieldsOf pattern).a0 ∧
    (fieldsOf w).a1 &&& (fieldsOf mask).a1 = (fieldsOf pattern).a1 := by
  rw [eq_iff_fieldsOf_eq]
  simp only [fieldsOf, BitVec.extractLsb'_and, CmdFields.mk.injEq]

/-- Settles O16: a row and the encoding of its command fix the same fields, the operation code and the
unused ones. -/
theorem opcodeTable : Obligations.OpcodeTable := by
  intro w
  refine ⟨⟨bufNumber_ofField _, bufNumber_ofField _⟩, ?_⟩
  simp only [decodeCommand_eq_instr_iff, encode, commandWord_eq_iff, and_eq_iff_fields]
  refine ⟨?_, ?_, ?_, ?_, ?_, ?_, ?_, ?_, ?_, ?_, ?_, ?_, ?_, ?_, ?_, ?_⟩ <;> simp [fieldsOf]

/-- A word that is a command matches a row: the one its operation code numbers. -/
theorem exists_row_hit {w : CmdWord} {i : Instr} (h : decodeCommand w = .instr i) :
    ∃ row ∈ opcodeRows, row.hit w = true := by
  rw [decodeCommand_eq_instr_iff] at h
  simp only [OpcodeRow.hit, beq_iff_eq, and_eq_iff_fields]
  cases i <;> simp only [encode, commandWord_eq_iff, fieldsOf, CmdFields.mk.injEq, reduceCtorEq] at h <;>
    simp [opcodeRows, fieldsOf, h]

theorem decodeCommand_of_op7 {w : CmdWord} (h : w.extractLsb' 0 4 = 7#4) :
    decodeCommand w = .instr (.reservedOp7 (BufId.ofField (fieldsOf w).d) (BufId.ofField (fieldsOf w).s)
      (fieldsOf w).a0 (fieldsOf w).a1) := by
  simp [decodeCommand_eq_instr_iff, encode, commandWord_eq_iff, fieldsOf, h]

end Sys2Proof

namespace Sys2Proof.Machine

/-- Rule R64: a word with `op = 7` and a word that matches no row end alike. -/
theorem runCommand_of_illegal {w : CmdWord} (s : State)
    (h : w.extractLsb' 0 4 = 7#4 ∨ ∀ row ∈ opcodeRows, row.hit w = false) :
    runCommand w s = raises .invalidParameter 0 s := by
  obtain hop | hrows := h
  · exact runCommand_of_instr w _ s (decodeCommand_of_op7 hop)
  · cases hw : decodeCommand w with
    | instr i =>
      obtain ⟨row, hrow, hhit⟩ := exists_row_hit hw
      simp [hrows row hrow] at hhit
    | reject r => exact runCommand_of_reject w r s hw

/-- Settles O17: `runCommand_of_illegal` as a step. -/
theorem illegalWordsRaise : Obligations.IllegalWordsRaise := by
  intro s w hj hp h
  exact ⟨_, (step_of_pending s w hj hp).trans (runCommand_of_illegal s h),
    failed_raise s .invalidParameter 0 (by decide)⟩

end Sys2Proof.Machine

/-! ## The units of the streams, read in place (rules R67 to R76) -/

namespace Sys2Proof

theorem wordSizeOk_iff (w : Nat) : wordSizeOk w = true ↔ 2 ≤ w ∧ w ≤ 64 := by
  rw [wordSizeOk, Bool.and_eq_true, decide_eq_true_eq, decide_eq_true_eq]
  rfl

/-- The marker and the length are all that reading a WAH word depends on (rules R68, R69). -/
theorem readWahWord_append (u : WahWord) (rest : Bits) (h : u.toInstr.wellFormed = true) :
    readWahWord u.bits.length (u.bits ++ rest) = .unit u := by
  cases u with
  | literal p =>
    simp only [WahWord.toInstr, Instr.wellFormed, wordSizeOk_iff] at h
    obtain ⟨b, p, rfl⟩ := List.exists_cons_of_length_pos (l := p) (by omega)
    simp [readWahWord, WahWord.bits]
  | fill w v n =>
    simp only [WahWord.toInstr, Instr.wellFormed, Bool.and_eq_true, wordSizeOk_iff,
      decide_eq_true_eq] at h
    obtain ⟨⟨hw, -⟩, hn⟩ := h
    obtain ⟨k, rfl⟩ := Nat.exists_eq_add_of_le' hw
    rw [Nat.add_sub_cancel] at hn
    simp [readWahWord, WahWord.bits, val_bitsN, Nat.mod_eq_of_lt hn]

/-- The field of a record is read behind its tag of 3 bits (rule R74). -/
theorem bbcField_append (tag n : Nat) (x : BitVec n) (rest : Bits) :
    bbcField n (bitsN 3 tag ++ (bitsN n x.toNat ++ rest)) = x := by
  simp [-bitsN_succ, bbcField, slice, val_bitsN]

theorem ifFieldFits_append (tag n v : Nat) (rest : Bits) (r : BbcRecord) :
    ifFieldFits n (bitsN 3 tag ++ (bitsN n v ++ rest)) r = .unit r :=
  if_neg (by simp [-bitsN_succ])

/-- The tag selects the record, and its field is what the record holds (rules R73, R75). -/
theorem readBbcRecord_append (r : BbcRecord) (rest : Bits) :
    readBbcRecord (r.bits ++ rest) = .unit r := by
  cases r <;> simp [-bitsN_succ, BbcRecord.bits, readBbcRecord, val_bitsN, ifFieldFits_append,
    bbcField_append]

/-- Settles O15: both readers, each on a unit with anything after it. -/
theorem unitsAreReadInPlace : Obligations.UnitsAreReadInPlace := by
  refine ⟨?_, readBbcRecord_append⟩
  rintro _ u rest h rfl
  exact readWahWord_append u rest h

theorem WahWord.length_bits (u : WahWord) (h : u.toInstr.wellFormed = true) :
    u.bits.length = u.toInstr.width := by
  cases u with
  | literal p => rfl
  | fill w v n =>
    simp only [WahWord.toInstr, Instr.wellFormed, Bool.and_eq_true, wordSizeOk_iff] at h
    simp [WahWord.bits, WahWord.toInstr, Instr.width]
    omega

/-- Settles O13: in each of the three formats of rule R78, what its reader makes of the encoding. -/
theorem decodeInvertsEncode : Obligations.DecodeInvertsEncode := by
  intro i hwf
  obtain ⟨w, hw⟩ | ⟨u, rfl⟩ | ⟨u, rfl⟩ := i.command_or_unit
  · rw [hw]
    exact decodeCommand_of_encode hw
  · have hread := readWahWord_append u [] hwf
    rw [List.append_nil, u.length_bits hwf] at hread
    rw [u.encode_toInstr, decode, hread]
  · have hread := readBbcRecord_append u []
    rw [List.append_nil] at hread
    rw [u.encode_toInstr, decode, hread]

/-- Settles O18: each word is evaluated. -/
theorem sampleWordsDecode : Obligations.SampleWordsDecode := by
  unfold Obligations.SampleWordsDecode
  decide

end Sys2Proof

namespace Sys2Proof.Machine

/-! ## The response word (rule R65) -/

/-- The sum of rule R65 fits 131 bits. -/
theorem Response.toNat_word (r : Response) :
    r.word.toNat = r.status.toNat + r.res.toNat * 2 ^ 3 + r.off.toNat * 2 ^ 67 := by
  rw [Response.word, BitVec.toNat_ofNat, Nat.mod_eq_of_lt]
  omega

/-- Settles O19: each field is digits of the sum. -/
theorem responseWordFields : Obligations.ResponseWordFields := by
  intro r
  refine ⟨?_, ?_, ?_, r.toNat_word⟩ <;>
    · apply BitVec.eq_of_toNat_eq
      rw [BitVec.extractLsb'_toNat, r.toNat_word, Nat.shiftRight_eq_div_pow]
      omega

/-! ## What a unit does to the decoder that reads it (rules R116, R145)

A unit moves the scan on or ends the command as malformed; which of the two, and by how much, is its
effect's. -/

section
variable {s : State} {j : Job} {reads : Codec → Bool} {effect : Scan → Option Scan}

theorem onScan_scanned {sc : Scan} (hj : s.job = some j) (hr : reads j.codec = true)
    (he : effect j.scan = some sc) : ∃ t, onScan reads effect s = .next t ∧ Scanned j sc s t :=
  ⟨{ s with job := some { j with scan := sc } }, by simp [onScan, hj, hr, he], rfl,
    ⟨buf_with_job s _, fun _ => rfl, rfl⟩, ⟨rfl, rfl⟩, rfl, rfl⟩

theorem onScan_failed (hj : s.job = some j) (hr : reads j.codec = true) (he : effect j.scan = none)
    (hpos : j.scan.pos < 2 ^ 64) :
    ∃ t, onScan reads effect s = .next t ∧ Failed .malformedStream j.scan.pos s t :=
  ⟨_, by simp [onScan, hj, hr, he, raises], failed_raise s _ _ hpos⟩

theorem exec_wahWord_scanned (u : WahWord) {f : Nat} {sc : Scan} (hj : s.job = some j)
    (hc : j.codec = .wah u.toInstr.width f) (he : wahWordEffect u j.scan = some sc) :
    ∃ t, exec u.toInstr s = .next t ∧ Scanned j sc s t := by
  rw [exec_wahWord]
  exact onScan_scanned hj (by simp [hc, Codec.readsWahWord]) he

theorem exec_wahWord_failed (u : WahWord) {f : Nat} (hj : s.job = some j)
    (hc : j.codec = .wah u.toInstr.width f) (he : wahWordEffect u j.scan = none)
    (hpos : j.scan.pos < 2 ^ 64) :
    ∃ t, exec u.toInstr s = .next t ∧ Failed .malformedStream j.scan.pos s t := by
  rw [exec_wahWord]
  exact onScan_failed hj (by simp [hc, Codec.readsWahWord]) he hpos

theorem exec_bbcRecord_scanned (u : BbcRecord) {m : Nat} {sc : Scan} (hj : s.job = some j)
    (hc : j.codec = .bbc m) (he : bbcRecordEffect u j.scan = some sc) :
    ∃ t, exec u.toInstr s = .next t ∧ Scanned j sc s t := by
  rw [exec_bbcRecord]
  exact onScan_scanned hj (by simp [hc, Codec.readsBbcRecord]) he

theorem exec_bbcRecord_failed (u : BbcRecord) {m : Nat} (hj : s.job = some j)
    (hc : j.codec = .bbc m) (he : bbcRecordEffect u j.scan = none) (hpos : j.scan.pos < 2 ^ 64) :
    ∃ t, exec u.toInstr s = .next t ∧ Failed .malformedStream j.scan.pos s t := by
  rw [exec_bbcRecord]
  exact onScan_failed hj (by simp [hc, Codec.readsBbcRecord]) he hpos

end

/-- Settles O53: a literal and a fill word that counts emit, counter 0 is malformed. -/
theorem wahWordsAct : Obligations.WahWordsAct := by
  refine ⟨fun s j p f hj hc => ?_, fun s j w f n v hj hc hn => ?_, fun s j w f v hj hc hpos => ?_⟩
  · obtain ⟨t, ht, hs⟩ := exec_wahWord_scanned (.literal p) hj hc rfl
    exact ⟨t, _, ht, hs, by simp⟩
  · obtain ⟨t, ht, hs⟩ := exec_wahWord_scanned (.fill w v n) hj hc (if_neg (by omega))
    exact ⟨t, _, ht, hs, by simp, by simp, by simp [flatten_replicate_rep, groupSize]⟩
  · exact exec_wahWord_failed (.fill w v 0) hj hc rfl hpos

/-- The scan `sc'` is `sc` after `width` more bits of the stream that stand for the bytes `ys`. -/
def EmitsBytes (width : Nat) (ys : List Byte) (sc sc' : Scan) : Prop :=
  sc'.pos = sc.pos + width ∧ sc'.units = sc.units + ys.length ∧
    sc'.bits = sc.bits ++ ys.flatMap bitsOfByte

theorem emitsBytes_emit (width : Nat) (y : Byte) (n : Nat) (sc : Scan) :
    EmitsBytes width (List.replicate n y) sc (sc.emit width (bitsOfByte y) n) :=
  ⟨by simp, by simp, by simp [List.flatMap_def]⟩

theorem runEffect_of_ne_zero {n : BitVec 8} (hn : n ≠ 0) (y : Byte) (sc : Scan) :
    runEffect y n sc = some (sc.emit 11 (bitsOfByte y) n.toNat) :=
  if_neg fun h => hn (BitVec.eq_of_toNat_eq h)

/-- A record a decoder accepts emits its bytes (rule R145). -/
theorem bbcRecordEffect_of_legal {u : BbcRecord} (h : bbcLegal u) (sc : Scan) :
    ∃ sc', bbcRecordEffect u sc = some sc' ∧ EmitsBytes u.bits.length (bbcBytes u) sc sc' := by
  cases u with
  | zeroRun n => exact ⟨_, runEffect_of_ne_zero h _ sc, emitsBytes_emit 11 _ _ sc⟩
  | oneRun n => exact ⟨_, runEffect_of_ne_zero h _ sc, emitsBytes_emit 11 _ _ sc⟩
  | singleSet i => exact ⟨_, rfl, emitsBytes_emit 6 _ 1 sc⟩
  | singleClear i => exact ⟨_, rfl, emitsBytes_emit 6 _ 1 sc⟩
  | literal b => exact ⟨_, rfl, emitsBytes_emit 11 _ 1 sc⟩
  | reserved101 => exact h.elim
  | reserved110 => exact h.elim
  | reserved111 => exact h.elim

/-- Settles O54: the five record kinds emit, and a run length of 0 is malformed. -/
theorem bbcRecordsAct : Obligations.BbcRecordsAct := by
  constructor
  · intro s j m u hj hc hu
    obtain ⟨sc, he, hemits⟩ := bbcRecordEffect_of_legal hu j.scan
    obtain ⟨t, ht, hs⟩ := exec_bbcRecord_scanned u hj hc he
    exact ⟨t, sc, ht, hs, hemits⟩
  · rintro s j m i hj hc hpos (rfl | rfl)
    · exact exec_bbcRecord_failed (.zeroRun 0) hj hc rfl hpos
    · exact exec_bbcRecord_failed (.oneRun 0) hj hc rfl hpos

/-- Settles O55: a reserved tag has no effect on any scan. -/
theorem reservedTagsAreMalformed : Obligations.ReservedTagsAreMalformed := by
  rintro s j m i hj hc hpos (rfl | rfl | rfl)
  · exact exec_bbcRecord_failed .reserved101 hj hc rfl hpos
  · exact exec_bbcRecord_failed .reserved110 hj hc rfl hpos
  · exact exec_bbcRecord_failed .reserved111 hj hc rfl hpos

end Sys2Proof.Machine

/-! ## The bit-sequence builder (rules R90 to R98)

Each command has one equation per ending its rule gives it; the obligations read the two kinds of ending
in the words claims are stated in. -/

namespace Sys2Proof

@[simp] theorem BufId.toNat_field (b : BufId) : b.field.toNat = Machine.bufNumber b := by
  cases b <;> rfl

end Sys2Proof

namespace Sys2Proof.Machine

/-- An instruction has the word of the fields it is encoded with (rules R60, R62). -/
theorem hasWord_of_encode {i : Instr} {op : BitVec 4} {d s : BitVec 2} {a0 a1 : Operand}
    (h : encode i = commandWord op d s a0 a1) :
    HasWord i op.toNat d.toNat s.toNat a0.toNat a1.toNat :=
  ⟨wordOf ⟨op, d, s, a0, a1⟩, toNat_wordOf _, decodeCommand_of_encode h⟩

/-! ### How an outcome reads as an ending -/

section
variable {s : State} {x : Result}

theorem exists_failed {e : ErrorKind} {off : Nat} (h : x = raises e off s) (hoff : off < 2 ^ 64) :
    ∃ t, x = .next t ∧ Failed e off s t :=
  ⟨_, h, failed_raise s e off hoff⟩

theorem exists_untouched {res : Nat} (h : x = succeeds res s) (hres : res < 2 ^ 64) :
    ∃ t, x = .next t ∧ Succeeded res s t ∧ Untouched s t :=
  ⟨_, h, succeeded_succeed s res hres, untouched_succeed s res⟩

/-- Success is told from the state before the command, since no commit moves what `Answered` compares. -/
theorem succeeded_succeed_of_commit {u : State} (hpc : u.pc = s.pc) (host : SameHost s u) {res : Nat}
    (hres : res < 2 ^ 64) : Succeeded res s (u.succeed res) := by
  obtain ⟨r, ⟨hr, hpc', hjob, -⟩, hend⟩ := succeeded_succeed u res hres
  exact ⟨r, ⟨hr, hpc'.trans (congrArg (· + 1) hpc), hjob, host⟩, hend⟩

/-- The ending of every builder command that commits a buffer. -/
theorem exists_onlyBuf {d : BufId} {q : Bits} (h : x = succeeds 0 (s.setBuf d q)) :
    ∃ t, x = .next t ∧ Succeeded 0 s t ∧ OnlyBuf d q s t :=
  ⟨_, h, succeeded_succeed_of_commit (by simp) ⟨by simp, by simp⟩ (by decide),
    onlyBuf_setBuf_succeed s d q 0⟩

theorem Succeeded.cap_eq {t : State} {res : Nat} (h : Succeeded res s t) : t.cap = s.cap := by
  obtain ⟨_, ⟨-, -, -, -, hcap⟩, -⟩ := h
  exact hcap

/-- No command both raises and succeeds. -/
theorem not_succeeded_raise {s' : State} {res : Nat} {e : ErrorKind} {off : Nat} :
    ¬ Succeeded res s' (s.raise e off) := by
  rintro ⟨r, ⟨hr, -⟩, hok, -⟩
  exact raise_status_ne_zero s e off hr hok

end

theorem OnlyBuf.trans {d : BufId} {q q' : Bits} {s t u : State} (h : OnlyBuf d q s t)
    (h' : OnlyBuf d q' t u) : OnlyBuf d q' s u := by
  obtain ⟨-, bufs, raw, errs⟩ := h
  obtain ⟨buf', bufs', raw', errs'⟩ := h'
  exact ⟨buf', fun b hb => (bufs' b hb).trans (bufs b hb), fun a => (raw' a).trans (raw a),
    errs'.trans errs⟩

/-- A length fits a result field (rules R6, R22). -/
theorem State.Inv.length_buf_lt {s : State} (h : s.Inv) (b : BufId) : (s.buf b).length < 2 ^ 64 :=
  (h.bufs_fit b).trans_lt h.cap_legal.2

/-! ### `BS_CLEAR` and `BS_LEN` (rules R91, R92) -/

/-- Settles O23: the empty sequence is what is committed. -/
theorem bsClearResult : Obligations.BsClearResult := fun _ d =>
  ⟨by simpa using hasWord_of_encode (i := .bsClear d) rfl, exists_onlyBuf rfl⟩

/-- Settles O24: under the invariant the length fits the result. -/
theorem bsLenResult : Obligations.BsLenResult := fun _ b inv =>
  ⟨by simpa using hasWord_of_encode (i := .bsLen b) rfl, exists_untouched rfl (inv.length_buf_lt b)⟩

/-! ### `BS_GET` (rule R93) -/

section
variable {s : State} {b : BufId} {i : Operand}

theorem exec_bsGet_past (h : (s.buf b).length ≤ i.toNat) :
    exec (.bsGet b i) s = raises .outOfRange i.toNat s := by
  simp [exec, execBsGet, opVal, h]

theorem exec_bsGet_of_getElem? {v : Bool} (h : (s.buf b)[i.toNat]? = some v) :
    exec (.bsGet b i) s = succeeds v.toNat s := by
  simp [exec, execBsGet, opVal, h]

end

theorem toNat_bool_lt (v : Bool) : v.toNat < 2 ^ 64 := (Bool.toNat_lt v).trans (by decide)

/-- Settles O25: the index is looked up once, and is there or not. -/
theorem bsGetResult : Obligations.BsGetResult := by
  intro s b i
  refine ⟨by simpa using hasWord_of_encode (i := .bsGet b i) rfl, fun h => ?_, fun h => ?_⟩
  · exact exists_failed (exec_bsGet_past h) i.isLt
  · exact exists_untouched (exec_bsGet_of_getElem? (List.getElem?_eq_getElem h)) (toNat_bool_lt _)

/-! ### `BS_APPEND` (rule R94) -/

theorem isBit_iff (a : Operand) : isBit a = true ↔ a.toNat ≤ 1 := decide_eq_true_iff

section
variable {s : State} {d : BufId} {bit : Operand}

theorem exec_bsAppend_notBit (h : 1 < bit.toNat) :
    exec (.bsAppend d bit) s = raises .invalidParameter 0 s := by
  simp [exec, execBsAppend, isBit_iff, h]

theorem exec_bsAppend_full (h : bit.toNat ≤ 1) (hfull : (s.buf d).length = s.cap) :
    exec (.bsAppend d bit) s = raises .capacityExceeded 0 s := by
  simp [exec, execBsAppend, isBit_iff, h, hfull]

theorem exec_bsAppend_fits (h : bit.toNat ≤ 1) (hfits : (s.buf d).length ≠ s.cap) :
    exec (.bsAppend d bit) s =
      succeeds 0 (s.setBuf d (s.buf d ++ [decide (bit.toNat = 1)])) := by
  have hbit : isBit bit = true := (isBit_iff bit).mpr h
  simp only [exec, execBsAppend, hbit, Bool.not_true, Bool.false_eq_true, if_false, hfits]
  rfl

end

/-- Settles O26: the three endings in the order of the tests. -/
theorem bsAppendResult : Obligations.BsAppendResult := by
  intro s d bit
  refine ⟨by simpa using hasWord_of_encode (i := .bsAppend d bit) rfl, fun h => ?_, fun h hfull => ?_,
    fun h hfits => ?_⟩
  · exact exists_failed (exec_bsAppend_notBit h) (by decide)
  · exact exists_failed (exec_bsAppend_full h hfull) (by decide)
  · exact exists_onlyBuf (exec_bsAppend_fits h hfits)

end Sys2Proof.Machine

/-! ### `BS_SLICE` (rule R95) -/

namespace Sys2Proof

theorem length_slice {q : Bits} {a b : Nat} (h : b ≤ q.length) : (slice q a b).length = b - a := by
  simp only [slice, List.length_take, List.length_drop]
  omega

theorem getElem?_slice (q : Bits) {a b k : Nat} (h : k < b - a) : (slice q a b)[k]? = q[a + k]? := by
  rw [slice, List.getElem?_take_of_lt h, List.getElem?_drop]

theorem slice_whole (q : Bits) : slice q 0 q.length = q := by simp [slice]

/-- A slice of a slice is cut from the original at the sums of the bounds (rule R98, law 3). -/
theorem slice_slice (q : Bits) {x y c z : Nat} (h : z ≤ y - x) :
    slice (slice q x y) c z = slice q (x + c) (x + z) := by
  simp only [slice, List.drop_take, List.take_take, List.drop_drop]
  congr 1
  omega

end Sys2Proof

namespace Sys2Proof.Machine

theorem endPast_iff (stop : Operand) (n : Nat) : endPast stop n = true ↔ n < stop.toNat :=
  decide_eq_true_iff

theorem startPast_iff (start stop : Operand) :
    startPast start stop = true ↔ stop.toNat < start.toNat := decide_eq_true_iff

section
variable {s : State} {d b : BufId} {start stop : Operand}

theorem exec_bsSlice_same (h : d = b) :
    exec (.bsSlice d b start stop) s = raises .invalidParameter 0 s := by
  simp [exec, execBsSlice, h]

theorem exec_bsSlice_endPast (h : d ≠ b) (hend : (s.buf b).length < stop.toNat) :
    exec (.bsSlice d b start stop) s = raises .outOfRange stop.toNat s := by
  simp [exec, execBsSlice, endPast_iff, h, hend, opVal]

theorem exec_bsSlice_startPast (h : d ≠ b) (hend : stop.toNat ≤ (s.buf b).length)
    (hstart : stop.toNat < start.toNat) :
    exec (.bsSlice d b start stop) s = raises .outOfRange start.toNat s := by
  simp [exec, execBsSlice, endPast_iff, startPast_iff, h, hend.not_gt, hstart, opVal]

theorem exec_bsSlice_ok (h : d ≠ b) (hend : stop.toNat ≤ (s.buf b).length)
    (hstart : start.toNat ≤ stop.toNat) :
    exec (.bsSlice d b start stop) s =
      succeeds 0 (s.setBuf d (slice (s.buf b) start.toNat stop.toNat)) := by
  simp [exec, execBsSlice, endPast_iff, startPast_iff, h, hend.not_gt, hstart.not_gt, opVal]

/-- A slice that succeeded has passed the three tests, and its destination holds the range. -/
theorem succeeded_bsSlice {t : State} (h : exec (.bsSlice d b start stop) s = .next t)
    (hok : Succeeded 0 s t) : stop.toNat ≤ (s.buf b).length ∧
      t.buf d = slice (s.buf b) start.toNat stop.toNat := by
  have no_raise {e : ErrorKind} {off : Nat}
      (hr : exec (.bsSlice d b start stop) s = raises e off s) : False := by
    cases h.symm.trans hr
    exact not_succeeded_raise hok
  have hne : d ≠ b := fun hd => no_raise (exec_bsSlice_same hd)
  have hend := Nat.le_of_not_lt fun he => no_raise (exec_bsSlice_endPast hne he)
  have hstart := Nat.le_of_not_lt fun hs => no_raise (exec_bsSlice_startPast hne hend hs)
  cases h.symm.trans (exec_bsSlice_ok hne hend hstart)
  exact ⟨hend, by simp⟩

end

/-- Settles O27: the four endings in the order of the tests; the range is `slice`. -/
theorem bsSliceResult : Obligations.BsSliceResult := by
  intro s d b start stop
  refine ⟨by simpa using hasWord_of_encode (i := .bsSlice d b start stop) rfl, fun hd => ?_,
    fun hne hend => ?_, fun hne hend hstart => ?_, fun hne hend hstart => ?_⟩
  · exact exists_failed (exec_bsSlice_same hd) (by decide)
  · exact exists_failed (exec_bsSlice_endPast hne hend) stop.isLt
  · exact exists_failed (exec_bsSlice_startPast hne hend hstart) start.isLt
  · obtain ⟨t, ht, hok, honly⟩ := exists_onlyBuf (exec_bsSlice_ok hne hend hstart)
    exact ⟨t, _, ht, hok, honly, length_slice hend, fun k hk => getElem?_slice _ hk⟩

/-- Settles O31: `slice_whole` and `slice_slice`, the inner slice being as long as its bounds say. -/
theorem slicesCompose : Obligations.SlicesCompose := by
  constructor
  · intro s d b n hne hn
    obtain ⟨t, ht, -, hbuf, -⟩ :=
      exists_onlyBuf (exec_bsSlice_ok (start := 0) hne hn.le (Nat.zero_le _))
    refine ⟨t, ht, hbuf.trans ?_⟩
    rw [hn]
    exact slice_whole _
  · intro s t u v b d e g x y c z xc xz ht hokt hu hoku hv hokv hxc hxz
    obtain ⟨hy, hbt⟩ := succeeded_bsSlice ht hokt
    obtain ⟨hz, hbu⟩ := succeeded_bsSlice hu hoku
    obtain ⟨-, hbv⟩ := succeeded_bsSlice hv hokv
    rw [hbt, length_slice hy] at hz
    rw [hbu, hbt, hbv, hxc, hxz, slice_slice _ hz]

/-! ### `BS_FROM_BYTES` (rule R96) -/

section
variable {s : State} {d : BufId} {n : Operand}

theorem exec_bsFromBytes_over (h : s.cap < n.toNat) :
    exec (.bsFromBytes d n) s = raises .capacityExceeded 0 s := by
  simp [exec, execBsFromBytes, opVal, h]

theorem exec_bsFromBytes_fits (h : n.toNat ≤ s.cap) : exec (.bsFromBytes d n) s =
    succeeds 0 (s.setBuf d (unpack (Memory.readN s.raw 0 (ceilDiv n.toNat 8)) n.toNat)) := by
  simp [exec, execBsFromBytes, opVal, h.not_gt]

end

/-! `ceil_div(n, 8)` bytes hold `n` bits, and bit `i` is a digit of byte `i div 8`. -/

theorem length_unpack_readN (m : List Host.Cell) (n : Nat) :
    (unpack (Memory.readN m 0 (ceilDiv n 8)) n).length = n := by
  apply length_unpack
  rw [Memory.length_readN, Nat.mul_comm]
  exact le_ceilDiv_mul n 8 (by decide)

theorem getElem?_unpack_readN (m : List Host.Cell) {n i : Nat} (h : i < n) :
    (unpack (Memory.readN m 0 (ceilDiv n 8)) n)[i]? =
      some ((Memory.read m (i / 8)).getLsbD (7 - i % 8)) := by
  have hbyte : i / 8 < (Memory.readN m 0 (ceilDiv n 8)).length := by
    have := le_ceilDiv_mul n 8 (by decide)
    rw [Memory.length_readN]
    omega
  rw [unpack, List.getElem?_take_of_lt h, getElem?_flatMap_bitsOfByte, List.getElem?_eq_getElem hbyte,
    Memory.getElem_readN, Nat.zero_add]
  rfl

/-- Settles O28: the two endings, and `unpack` by the digits of the bytes that are read. -/
theorem bsFromBytesResult : Obligations.BsFromBytesResult := by
  intro s d n
  refine ⟨by simpa using hasWord_of_encode (i := .bsFromBytes d n) rfl, fun h => ?_, fun h => ?_⟩
  · exact exists_failed (exec_bsFromBytes_over h) (by decide)
  · obtain ⟨t, ht, hok, honly⟩ := exists_onlyBuf (exec_bsFromBytes_fits (d := d) h)
    exact ⟨t, _, ht, hok, honly, length_unpack_readN _ _, fun i hi => getElem?_unpack_readN _ hi⟩

end Sys2Proof.Machine

/-! ### `BS_TO_BYTES` (rule R97) -/

namespace Sys2Proof

theorem ceilDiv_mono {a a' : Nat} (h : a ≤ a') (b : Nat) (hb : 1 ≤ b) : ceilDiv a b ≤ ceilDiv a' b :=
  (ceilDiv_le_iff a b _ hb).mpr (h.trans (le_ceilDiv_mul a' b hb))

theorem getElem?_append_rep (q : Bits) {n i : Nat} (h : i < q.length + n) :
    (q ++ rep false n)[i]? = some (q[i]?.getD false) := by
  by_cases hi : i < q.length
  · rw [List.getElem?_append_left hi, List.getElem?_eq_getElem hi, Option.getD_some]
  · rw [List.getElem?_append_right (Nat.le_of_not_lt hi), rep, List.getElem?_replicate_of_lt (by omega),
      List.getElem?_eq_none (Nat.le_of_not_lt hi), Option.getD_none]

/-- Digit by digit, a packed byte holds the bits of its unit, and 0 beyond the sequence (rule R42). -/
theorem getLsbD_pack (q : Bits) {a k : Nat} (ha : a < (pack q).length) (hk : k < 8) :
    ((pack q)[a]).getLsbD (7 - k) = q[8 * a + k]?.getD false := by
  have hbit := getElem?_flatMap_bitsOfByte (pack q) (8 * a + k)
  have hin : 8 * a + k < q.length + (ceilDiv q.length 8 * 8 - q.length) := by
    rw [length_pack] at ha
    omega
  rw [flatMap_bitsOfByte_pack, flatten_partition 8 q (by decide), getElem?_append_rep q hin,
    show (8 * a + k) / 8 = a by omega, show (8 * a + k) % 8 = k by omega,
    List.getElem?_eq_getElem ha] at hbit
  exact (Option.some.inj hbit).symm

end Sys2Proof

namespace Sys2Proof.Machine

/-- What a run of writes from address 0 wrote is read back whole. -/
theorem Memory.readN_writeN (m : List Host.Cell) (ys : List Byte) (h : wf m = true) :
    readN (writeN m 0 ys) 0 ys.length = ys := by
  apply List.ext_getElem (length_readN _ _ _)
  intro k hk hk'
  rw [getElem_readN, read_writeN_inside m 0 k ys h hk']

theorem exec_bsToBytes (b : BufId) (s : State) : exec (.bsToBytes b) s =
    succeeds (s.buf b).length (s.setRaw (Memory.writeN s.raw 0 (pack (s.buf b)))) := rfl

/-- Settles O29: the packed bytes are the first of `RAW`, the others are outside the run of writes. -/
theorem bsToBytesResult : Obligations.BsToBytesResult := by
  intro s b inv
  refine ⟨by simpa using hasWord_of_encode (i := .bsToBytes b) rfl, _, exec_bsToBytes b s,
    succeeded_succeed_of_commit rfl ⟨rfl, rfl⟩ (inv.length_buf_lt b), fun b' => by simp, rfl,
    ceilDiv_mono (inv.bufs_fit b) 8 (by decide), fun a ha => ?_, fun a k ha hk => ?_⟩
  · exact Memory.read_writeN_outside s.raw 0 a _ (.inr (by simpa using ha))
  · rw [← length_pack] at ha
    have hread := Memory.read_writeN_inside s.raw 0 a _ inv.raw_canonical ha
    rw [Nat.zero_add] at hread
    exact (congrArg (·.getLsbD (7 - k)) hread).trans (getLsbD_pack _ ha hk)

/-- Settles O32: the bytes written are the bytes read, and `unpack` undoes `pack`. -/
theorem bytesRoundTrip : Obligations.BytesRoundTrip := by
  intro s b d n inv hn
  refine ⟨_, _, exec_bsToBytes b s, exec_bsFromBytes_fits (hn.trans_le (inv.bufs_fit b)), ?_⟩
  have hread := Memory.readN_writeN s.raw (pack (s.buf b)) inv.raw_canonical
  rw [length_pack] at hread
  simp [hn, hread, unpack_pack]

/-! ### `BS_LIT` (rules R81, R98 law 1) -/

theorem execAll_cons {i : Instr} {s t : State} (is : List Instr) (h : exec i s = .next t) :
    execAll (i :: is) s = execAll is t := by
  simp only [execAll, h]

/-- One `BS_APPEND` of the expansion of `BS_LIT`. -/
theorem exec_bsAppend_bit {s : State} {d : BufId} (v : Bool) (h : (s.buf d).length < s.cap) :
    exec (.bsAppend d (if v then 1 else 0)) s = succeeds 0 (s.setBuf d (s.buf d ++ [v])) := by
  cases v
  · exact exec_bsAppend_fits (bit := 0) (by decide) h.ne
  · exact exec_bsAppend_fits (bit := 1) (by decide) h.ne

/-- Appends, one a bit, put their bits behind what the buffer holds, as long as it fits. -/
theorem execAll_appends (d : BufId) (q : Bits) (s : State) (h : (s.buf d).length + q.length ≤ s.cap) :
    ∃ t, execAll (q.map fun v => .bsAppend d (if v then 1 else 0)) s = .next t ∧
      OnlyBuf d (s.buf d ++ q) s t := by
  induction q generalizing s with
  | nil => exact ⟨s, rfl, by simp, fun _ _ => rfl, fun _ => rfl, rfl⟩
  | cons v q ih =>
    rw [List.length_cons] at h
    obtain ⟨t, ht, hok, honly⟩ :=
      exists_onlyBuf (exec_bsAppend_bit v (show (s.buf d).length < s.cap by omega))
    have hbuf : t.buf d = s.buf d ++ [v] := honly.1
    obtain ⟨u, hu, honly'⟩ := ih t (by
      rw [hbuf, hok.cap_eq, List.length_append, List.length_singleton]
      omega)
    rw [hbuf, List.append_assoc, List.singleton_append] at honly'
    exact ⟨u, (execAll_cons _ ht).trans hu, honly.trans honly'⟩

/-- `BS_LIT` makes its buffer the literal. -/
theorem execAll_bsLit (d : BufId) (q : Bits) (s : State) (h : q.length ≤ s.cap) :
    ∃ t, execAll (bsLit d q) s = .next t ∧ OnlyBuf d q s t := by
  obtain ⟨c, hc, hok, honly⟩ := exists_onlyBuf (x := exec (.bsClear d) s) rfl
  have hbuf : c.buf d = [] := honly.1
  obtain ⟨t, ht, honly'⟩ := execAll_appends d q c (by simpa [hbuf, hok.cap_eq] using h)
  rw [hbuf, List.nil_append] at honly'
  exact ⟨t, (execAll_cons _ hc).trans ht, honly.trans honly'⟩

/-- Settles O30: `BS_LIT`, then the equations of `BS_LEN` and `BS_GET` on what it built. -/
theorem appendsBuild : Obligations.AppendsBuild := by
  intro s d q inv hq
  obtain ⟨t, ht, honly⟩ := execAll_bsLit d q s hq
  have hbuf : t.buf d = q := honly.1
  refine ⟨t, ht, honly, ?_, fun k hk => ?_⟩
  · obtain ⟨u, hu, hok, -⟩ := exists_untouched (x := exec (.bsLen d) t) rfl
      (show (t.buf d).length < 2 ^ 64 from hbuf ▸ hq.trans_lt inv.cap_legal.2)
    exact ⟨u, hu, hbuf ▸ hok⟩
  · obtain ⟨u, hu, hok, -⟩ := exists_untouched
      (exec_bsGet_of_getElem? (s := t) (b := d) (by rw [hbuf]; exact List.getElem?_eq_getElem hk))
      (toNat_bool_lt _)
    exact ⟨u, hu, hok⟩

end Sys2Proof.Machine

/-! ## WAH: the words of a stream (rules R68 to R71)

A stream is a list of legal words and, after them, nothing or the first bad word.  What the decoder does
is said of the words, and each end it can come to is one lemma. -/

namespace Sys2Proof

theorem bitsN_of_zero (n : Nat) : bitsN n 0 = rep false n := by
  induction n with
  | zero => rfl
  | succ n ih => rw [bitsN_succ, ih, Nat.zero_testBit]; rfl

end Sys2Proof

namespace Sys2Proof.Machine

namespace wahLegal
variable {w : Nat} {u : WahWord} (h : wahLegal w u)
include h

theorem width_eq : u.toInstr.width = w := by
  cases u with
  | literal p => exact h
  | fill w' v n => exact h.1

theorem groups_pos : 1 ≤ wahGroups u := by
  cases u with
  | literal p => exact le_rfl
  | fill w' v n => exact h.2.1

theorem length_emits : (wahEmits u).length = wahGroups u * (w - 1) := by
  cases u with
  | literal p =>
    cases h
    simp [wahEmits, wahGroups]
  | fill w' v n =>
    cases h.1
    simp [wahEmits, wahGroups]

theorem wellFormed (h2 : 2 ≤ w) (h64 : w ≤ 64) : u.toInstr.wellFormed = true := by
  cases u with
  | literal p =>
    cases h
    exact (wordSizeOk_iff _).mpr ⟨h2, h64⟩
  | fill w' v n =>
    obtain ⟨rfl, -, hn⟩ := h
    simp [WahWord.toInstr, Instr.wellFormed, wordSizeOk_iff, h2, h64, hn]

theorem length_bits (h2 : 2 ≤ w) (h64 : w ≤ 64) : u.bits.length = w :=
  (u.length_bits (h.wellFormed h2 h64)).trans h.width_eq

theorem read (h2 : 2 ≤ w) (h64 : w ≤ 64) (rest : Bits) :
    readWahWord w (u.bits ++ rest) = .unit u := by
  have := readWahWord_append u rest (h.wellFormed h2 h64)
  rwa [h.length_bits h2 h64] at this

end wahLegal

/-- What is left of a stream starts with a bad word: one cut short, or a fill word with counter 0 (rule
R71). -/
def StartsBadWord (w : Nat) (rest : Bits) : Prop :=
  rest ≠ [] ∧ (rest.length < w ∨ ∃ v tail, rest = [true, v] ++ rep false (w - 2) ++ tail)

/-- Any `w` bits are a word, legal unless it is a fill word with counter 0. -/
theorem exists_word_of_length {w : Nat} {q : Bits} (h2 : 2 ≤ w) (hq : q.length = w) :
    ∃ u : WahWord, u.bits = q ∧ (wahLegal w u ∨ ∃ v, u = .fill w v 0) := by
  match q, hq with
  | false :: p, hq => exact ⟨.literal p, rfl, .inl hq⟩
  | true :: v :: counter, hq =>
    have hlen : counter.length = w - 2 := by
      rw [← hq]
      rfl
    have hbits : bitsN (w - 2) (val counter) = counter := hlen ▸ bitsN_val counter
    refine ⟨.fill w v (val counter), by rw [WahWord.bits, hbits], ?_⟩
    obtain h0 | hpos := Nat.eq_zero_or_pos (val counter)
    · exact .inr ⟨v, by rw [h0]⟩
    · exact .inl ⟨rfl, hpos, hlen ▸ val_lt counter⟩
  | [], hq | [true], hq =>
    simp at hq
    omega

/-- How what is left of a stream can start (rule R71). -/
theorem stream_cases {w : Nat} (h2 : 2 ≤ w) (c : Bits) :
    c = [] ∨ StartsBadWord w c ∨ ∃ u rest, wahLegal w u ∧ c = u.bits ++ rest := by
  by_cases hnil : c = []
  · exact .inl hnil
  by_cases hshort : c.length < w
  · exact .inr (.inl ⟨hnil, .inl hshort⟩)
  obtain ⟨u, hu, hlegal | ⟨v, rfl⟩⟩ :=
    exists_word_of_length h2 (List.length_take_of_le (Nat.le_of_not_lt hshort))
  · exact .inr (.inr ⟨u, c.drop w, hlegal, by rw [hu, List.take_append_drop]⟩)
  · refine .inr (.inl ⟨hnil, .inr ⟨v, c.drop w, ?_⟩⟩)
    rw [WahWord.bits, bitsN_of_zero] at hu
    exact (List.take_append_drop w c).symm.trans (congrArg (· ++ c.drop w) hu.symm)

/-- Every stream is legal words, then nothing or a bad word. -/
theorem exists_words {w : Nat} (h2 : 2 ≤ w) (h64 : w ≤ 64) (c : Bits) :
    ∃ (ws : List WahWord) (rest : Bits), (∀ u ∈ ws, wahLegal w u) ∧
      c = ws.flatMap WahWord.bits ++ rest ∧ (rest = [] ∨ StartsBadWord w rest) := by
  induction hn : c.length using Nat.strong_induction_on generalizing c with
  | _ n ih =>
    obtain rfl | hbad | ⟨u, rest, hu, rfl⟩ := stream_cases h2 c
    · exact ⟨[], [], by simp, rfl, .inl rfl⟩
    · exact ⟨[], c, by simp, rfl, .inr hbad⟩
    · have hlen := hu.length_bits h2 h64
      rw [List.length_append] at hn
      obtain ⟨ws, rest', hws, rfl, hend⟩ := ih rest.length (by omega) rest rfl
      exact ⟨u :: ws, rest', List.forall_mem_cons.mpr ⟨hu, hws⟩, by simp, hend⟩

section
variable {w : Nat} {ws : List WahWord} (hws : ∀ u ∈ ws, wahLegal w u)
include hws

theorem length_words (h2 : 2 ≤ w) (h64 : w ≤ 64) :
    (ws.flatMap WahWord.bits).length = ws.length * w := by
  induction ws with
  | nil => simp
  | cons u ws ih =>
    obtain ⟨hu, hws⟩ := List.forall_mem_cons.mp hws
    rw [List.flatMap_cons, List.length_append, hu.length_bits h2 h64, ih hws, List.length_cons,
      Nat.succ_mul, Nat.add_comm]

theorem length_emits_words : (ws.flatMap wahEmits).length = (ws.map wahGroups).sum * (w - 1) := by
  induction ws with
  | nil => simp
  | cons u ws ih =>
    obtain ⟨hu, hws⟩ := List.forall_mem_cons.mp hws
    rw [List.flatMap_cons, List.length_append, hu.length_emits, ih hws, List.map_cons, List.sum_cons,
      Nat.add_mul]

theorem groups_words_eq_zero_iff : (ws.map wahGroups).sum = 0 ↔ ws = [] := by
  cases ws with
  | nil => simp
  | cons u ws =>
    have := (hws u List.mem_cons_self).groups_pos
    simp
    omega

end

/-! ## The WAH decoder, said of words (rule R116) -/

/-- The scan `sc'` is `sc` after the words `ws`. -/
def EmitsWords (ws : List WahWord) (sc sc' : Scan) : Prop :=
  sc'.pos = sc.pos + (ws.flatMap WahWord.bits).length ∧
    sc'.units = sc.units + (ws.map wahGroups).sum ∧ sc'.bits = sc.bits ++ ws.flatMap wahEmits

theorem emitsWords_nil (sc : Scan) : EmitsWords [] sc sc := by simp [EmitsWords]

theorem EmitsWords.append {ws ws' : List WahWord} {sc sc' sc'' : Scan} (h : EmitsWords ws sc sc')
    (h' : EmitsWords ws' sc' sc'') : EmitsWords (ws ++ ws') sc sc'' := by
  obtain ⟨hpos, hunits, hbits⟩ := h
  obtain ⟨hpos', hunits', hbits'⟩ := h'
  refine ⟨?_, ?_, ?_⟩
  · rw [hpos', hpos, List.flatMap_append, List.length_append, Nat.add_assoc]
  · rw [hunits', hunits, List.map_append, List.sum_append, Nat.add_assoc]
  · rw [hbits', hbits, List.flatMap_append, List.append_assoc]

/-- A legal word emits its groups. -/
theorem wahWordEffect_of_legal {w : Nat} {u : WahWord} (h2 : 2 ≤ w) (h : wahLegal w u) (sc : Scan) :
    ∃ sc', wahWordEffect u sc = some sc' ∧ EmitsWords [u] sc sc' := by
  cases u with
  | literal p => exact ⟨_, rfl, by simp [EmitsWords, WahWord.bits, wahGroups, wahEmits]⟩
  | fill w' v n =>
    obtain ⟨rfl, hn, -⟩ := h
    refine ⟨sc.emit w' (rep v (groupSize w')) n, if_neg (by omega), ?_, ?_, ?_⟩
    · simp [WahWord.bits]
      omega
    · simp [wahGroups]
    · simp [flatten_replicate_rep, wahEmits, groupSize]

section
variable {w : Nat} {c : Bits} {sc : Scan}

/-- A pass over a legal word. -/
theorem wahLoop_of_unit {u : WahWord} {sc' : Scan} (fuel : Nat) (hpos : sc.pos < c.length)
    (hread : readWahWord w (c.drop sc.pos) = .unit u) (he : wahWordEffect u sc = some sc') :
    wahLoop w c (fuel + 1) sc = wahLoop w c fuel sc' := by
  simp only [wahLoop, hpos, if_true, hread, he]

/-- The loop ends where the stream does, whatever the bound. -/
theorem wahLoop_of_end (fuel : Nat) (h : c.drop sc.pos = []) : wahLoop w c fuel sc = .ok sc := by
  cases fuel with
  | zero => rfl
  | succ fuel => exact if_neg (Nat.not_lt.mpr (List.drop_eq_nil_iff.mp h))

theorem lt_length_of_drop_ne_nil (h : c.drop sc.pos ≠ []) : sc.pos < c.length :=
  Nat.lt_of_not_le fun hle => h (List.drop_eq_nil_iff.mpr hle)

/-- The loop fails at the first bit of a bad word. -/
theorem wahLoop_of_badWord (h2 : 2 ≤ w) (h64 : w ≤ 64) (fuel : Nat)
    (h : StartsBadWord w (c.drop sc.pos)) : wahLoop w c (fuel + 1) sc = .malformed sc.pos := by
  obtain ⟨hne, hbad⟩ := h
  have hpos := lt_length_of_drop_ne_nil hne
  obtain hshort | ⟨v, tail, hrest⟩ := hbad
  · have hread : readWahWord w (c.drop sc.pos) = .reject .truncatedWord := if_pos hshort
    simp only [wahLoop, hpos, if_true, hread]
  · have hbits : (WahWord.fill w v 0).bits = [true, v] ++ rep false (w - 2) := by
      rw [WahWord.bits, bitsN_of_zero]
      rfl
    have hread : readWahWord w (c.drop sc.pos) = .unit (.fill w v 0) := by
      have hwf : (WahWord.fill w v 0).toInstr.wellFormed = true := by
        simp [WahWord.toInstr, Instr.wellFormed, wordSizeOk_iff, h2, h64]
      have := readWahWord_append _ tail hwf
      rwa [WahWord.length_bits _ hwf, hbits, ← hrest] at this
    simp only [wahLoop, hpos, if_true, hread, wahWordEffect, wahFillEffect]

/-- The loop reads legal words one by one, and stands behind the last of them with a pass a bit left. -/
theorem wahLoop_words (h2 : 2 ≤ w) (h64 : w ≤ 64) {ws : List WahWord} (hws : ∀ u ∈ ws, wahLegal w u)
    {rest : Bits} {fuel : Nat} (hdrop : c.drop sc.pos = ws.flatMap WahWord.bits ++ rest)
    (hfuel : c.length ≤ sc.pos + fuel) :
    ∃ fuel' sc', EmitsWords ws sc sc' ∧ c.drop sc'.pos = rest ∧ c.length ≤ sc'.pos + fuel' ∧
      wahLoop w c fuel sc = wahLoop w c fuel' sc' := by
  induction ws generalizing fuel sc with
  | nil => exact ⟨fuel, sc, emitsWords_nil sc, hdrop, hfuel, rfl⟩
  | cons u ws ih =>
    obtain ⟨hu, hws⟩ := List.forall_mem_cons.mp hws
    have hlen := hu.length_bits h2 h64
    rw [List.flatMap_cons, List.append_assoc] at hdrop
    have hpos : sc.pos < c.length := lt_length_of_drop_ne_nil (by
      rw [hdrop]
      exact List.append_ne_nil_of_left_ne_nil (List.ne_nil_of_length_pos (by omega)) _)
    obtain ⟨fuel, rfl⟩ := Nat.exists_eq_add_of_le' (show 1 ≤ fuel by omega)
    obtain ⟨sc₁, he, hemits⟩ := wahWordEffect_of_legal h2 hu sc
    have hpos₁ : sc₁.pos = sc.pos + u.bits.length := by simpa using hemits.1
    have hdrop₁ : c.drop sc₁.pos = ws.flatMap WahWord.bits ++ rest := by
      rw [hpos₁, ← List.drop_drop, hdrop, List.drop_left]
    obtain ⟨fuel', sc', hemits', hend, hfuel', hloop⟩ := ih hws hdrop₁ (by omega : _ ≤ sc₁.pos + fuel)
    refine ⟨fuel', sc', hemits.append hemits', hend, hfuel', ?_⟩
    rw [wahLoop_of_unit fuel hpos (hdrop ▸ hu.read h2 h64 _) he, hloop]

end

/-- What a sequence of legal words decodes to under the trailer `f` (rule R116). -/
def WordsAnswer (w f : Nat) (ws : List WahWord) (n : Nat) (y : Bits) : Prop :=
  (ws = [] ∧ f = 0 ∧ n = 0 ∧ y = []) ∨
  (ws ≠ [] ∧ 1 ≤ f ∧ f ≤ w - 1 ∧ n = ((ws.map wahGroups).sum - 1) * (w - 1) + f ∧
    y = (ws.flatMap wahEmits).take n)

/-- The trailer `f` does not fit a sequence of legal words (rule R116). -/
def TrailerMisfits (w f : Nat) (ws : List WahWord) : Prop :=
  (ws = [] → f ≠ 0) ∧ (ws ≠ [] → f < 1 ∨ w - 1 < f)

theorem answer_or_misfits (w f : Nat) (ws : List WahWord) :
    (∃ n y, WordsAnswer w f ws n y) ∨ TrailerMisfits w f ws := by
  by_cases hws : ws = []
  · by_cases hf : f = 0
    · exact .inl ⟨0, [], .inl ⟨hws, hf, rfl, rfl⟩⟩
    · exact .inr ⟨fun _ => hf, fun hne => absurd hws hne⟩
  · by_cases hf : f < 1 ∨ w - 1 < f
    · exact .inr ⟨fun hnil => absurd hnil hws, fun _ => hf⟩
    · exact .inl ⟨_, _, .inr ⟨hws, by omega, by omega, rfl, rfl⟩⟩

section
variable {w : Nat} (h2 : 2 ≤ w) (h64 : w ≤ 64) {ws : List WahWord} (hws : ∀ u ∈ ws, wahLegal w u)
include h2 h64 hws

/-- A stream of legal words is read to its end, and only the trailer is left to check. -/
theorem wahRead_words (f : Nat) : ∃ sc : Scan, sc.units = (ws.map wahGroups).sum ∧
    sc.bits = ws.flatMap wahEmits ∧
    wahRead (ws.flatMap WahWord.bits) f w = wahFinish w f (ws.flatMap WahWord.bits).length sc := by
  obtain ⟨fuel, sc, ⟨-, hunits, hbits⟩, hend, -, hloop⟩ :=
    wahLoop_words (c := ws.flatMap WahWord.bits) (sc := Scan.start) (rest := []) h2 h64 hws (by simp)
      (by simp : _ ≤ Scan.start.pos + (ws.flatMap WahWord.bits).length)
  refine ⟨sc, by simpa using hunits, by simpa using hbits, ?_⟩
  rw [wahRead, hloop, wahLoop_of_end fuel hend]

theorem wahDec_of_answer {f n : Nat} {y : Bits} (h : WordsAnswer w f ws n y) :
    wahDec (ws.flatMap WahWord.bits) f w = .ok (n, y) := by
  obtain ⟨sc, hunits, hbits, hread⟩ := wahRead_words h2 h64 hws f
  rw [wahDec, hread, wahFinish, hunits]
  obtain ⟨rfl, rfl, rfl, rfl⟩ | ⟨hne, hf1, hf, rfl, rfl⟩ := h
  · simp [DecodeResult.expand, Reading.bits]
  · rw [if_neg ((groups_words_eq_zero_iff hws).not.mpr hne), if_neg (by rw [groupSize]; omega)]
    simp [DecodeResult.expand, Reading.bits, hbits, groupSize]

theorem wahDec_of_misfit {f : Nat} (h : TrailerMisfits w f ws) :
    wahDec (ws.flatMap WahWord.bits) f w = .malformed (ws.flatMap WahWord.bits).length := by
  obtain ⟨sc, hunits, -, hread⟩ := wahRead_words h2 h64 hws f
  rw [wahDec, hread, wahFinish, hunits]
  obtain ⟨hnil, hcons⟩ := h
  have hempty := groups_words_eq_zero_iff hws
  by_cases hne : ws = []
  · rw [if_pos (hempty.mpr hne), if_neg (hnil hne)]
    rfl
  · rw [if_neg (hempty.not.mpr hne), groupSize, if_pos (hcons hne)]
    rfl

theorem wahDec_of_badWord {rest : Bits} (f : Nat) (h : StartsBadWord w rest) :
    wahDec (ws.flatMap WahWord.bits ++ rest) f w = .malformed (ws.flatMap WahWord.bits).length := by
  obtain ⟨fuel, sc, ⟨hpos, -⟩, hend, hfuel, hloop⟩ :=
    wahLoop_words (c := ws.flatMap WahWord.bits ++ rest) (sc := Scan.start) (rest := rest) h2 h64 hws rfl
      (by simp : _ ≤ Scan.start.pos + (ws.flatMap WahWord.bits ++ rest).length)
  have hbad := hend ▸ h
  have hlt := lt_length_of_drop_ne_nil hbad.1
  obtain ⟨fuel, rfl⟩ := Nat.exists_eq_add_of_le' (show 1 ≤ fuel by omega)
  rw [wahDec, wahRead, hloop, wahLoop_of_badWord h2 h64 fuel hbad, hpos]
  simp [DecodeResult.expand]

end

/-- Every stream decodes in one of the three ways of rule R116. -/
theorem wahDec_cases {w : Nat} (h2 : 2 ≤ w) (h64 : w ≤ 64) (c : Bits) (f : Nat) :
    ∃ ws : List WahWord, (∀ u ∈ ws, wahLegal w u) ∧
      ((c = ws.flatMap WahWord.bits ∧ ∃ n y, WordsAnswer w f ws n y ∧ wahDec c f w = .ok (n, y)) ∨
       (c = ws.flatMap WahWord.bits ∧ TrailerMisfits w f ws ∧ wahDec c f w = .malformed c.length) ∨
       (∃ rest, c = ws.flatMap WahWord.bits ++ rest ∧ StartsBadWord w rest ∧
         wahDec c f w = .malformed (ws.flatMap WahWord.bits).length)) := by
  obtain ⟨ws, rest, hws, rfl, rfl | hbad⟩ := exists_words h2 h64 c
  · rw [List.append_nil]
    obtain ⟨n, y, h⟩ | h := answer_or_misfits w f ws
    · exact ⟨ws, hws, .inl ⟨rfl, n, y, h, wahDec_of_answer h2 h64 hws h⟩⟩
    · exact ⟨ws, hws, .inr (.inl ⟨rfl, h, wahDec_of_misfit h2 h64 hws h⟩)⟩
  · exact ⟨ws, hws, .inr (.inr ⟨rest, rfl, hbad, wahDec_of_badWord h2 h64 hws f hbad⟩)⟩

theorem wahDec_ok_iff {w : Nat} (h2 : 2 ≤ w) (h64 : w ≤ 64) (c : Bits) (f n : Nat) (y : Bits) :
    wahDec c f w = .ok (n, y) ↔ ∃ ws : List WahWord, (∀ u ∈ ws, wahLegal w u) ∧
      c = ws.flatMap WahWord.bits ∧ WordsAnswer w f ws n y := by
  constructor
  · intro h
    obtain ⟨ws, hws, ⟨hc, n', y', ha, hd⟩ | ⟨-, -, hd⟩ | ⟨rest, -, -, hd⟩⟩ := wahDec_cases h2 h64 c f
    · cases h.symm.trans hd
      exact ⟨ws, hws, hc, ha⟩
    · cases h.symm.trans hd
    · cases h.symm.trans hd
  · rintro ⟨ws, hws, rfl, ha⟩
    exact wahDec_of_answer h2 h64 hws ha

/-- Settles O40: the three ways a stream decodes, and that each is the only one. -/
theorem wahDecoderAnswers : Obligations.WahDecoderAnswers := by
  intro w f c h2 h64
  refine ⟨wahDec_ok_iff h2 h64 c f, fun off => ⟨fun h => ?_, ?_⟩⟩
  · obtain ⟨ws, hws, ⟨-, n, y, -, hd⟩ | ⟨hc, ⟨hnil, hcons⟩, hd⟩ | ⟨rest, hc, ⟨hne, hbad⟩, hd⟩⟩ :=
      wahDec_cases h2 h64 c f
    · cases h.symm.trans hd
    · cases h.symm.trans hd
      exact ⟨ws, [], hws, by rw [hc, List.append_nil], .inr ⟨rfl, rfl, hnil, hcons⟩⟩
    · cases h.symm.trans hd
      exact ⟨ws, rest, hws, hc, .inl ⟨hne, rfl, hbad⟩⟩
  · rintro ⟨ws, rest, hws, rfl, ⟨hne, rfl, hbad⟩ | ⟨rfl, rfl, hmisfit⟩⟩
    · exact wahDec_of_badWord h2 h64 hws f ⟨hne, hbad⟩
    · rw [List.append_nil]
      exact wahDec_of_misfit h2 h64 hws hmisfit

end Sys2Proof.Machine

/-! ## The groups of a WAH input, and its trailer (rules R112, R113) -/

namespace Sys2Proof

theorem pred_ceilDiv_mul_lt {a b : Nat} (ha : 1 ≤ a) (hb : 1 ≤ b) : (ceilDiv a b - 1) * b < a := by
  by_contra hle
  have hk := (ceilDiv_le_iff a b _ hb).mpr (Nat.le_of_not_lt hle)
  have hmul := le_ceilDiv_mul a b hb
  rw [show ceilDiv a b = 0 by omega] at hmul
  omega

theorem ceilDiv_pos {a b : Nat} (ha : 1 ≤ a) (hb : 1 ≤ b) : 1 ≤ ceilDiv a b := by
  refine Nat.pos_of_ne_zero fun h => ?_
  have hmul := le_ceilDiv_mul a b hb
  rw [h] at hmul
  omega

theorem ceilDiv_eq_pred_div_succ {a b : Nat} (ha : 1 ≤ a) (hb : 1 ≤ b) :
    ceilDiv a b = (a - 1) / b + 1 := by
  rw [ceilDiv, ← Nat.add_div_right _ hb]
  congr 1
  omega

/-- A last unit is padded by less than a unit. -/
theorem ceilDiv_mul_lt (a : Nat) {b : Nat} (hb : 1 ≤ b) : ceilDiv a b * b < a + b := by
  obtain rfl | ha := Nat.eq_zero_or_pos a
  · rw [ceilDiv_zero b hb]
    omega
  · have hlt := pred_ceilDiv_mul_lt ha hb
    have hk := Nat.sub_add_cancel (ceilDiv_pos ha hb)
    rw [← hk, Nat.succ_mul]
    omega

end Sys2Proof

namespace Sys2Proof.Machine

/-- The trailer of a non-empty input is what its groups but the last leave of it (rule R113). -/
theorem trailer_spec {w n : Nat} (h2 : 2 ≤ w) (hn : 1 ≤ n) :
    (ceilDiv n (w - 1) - 1) * (w - 1) + trailer w n = n ∧ 1 ≤ trailer w n ∧ trailer w n ≤ w - 1 := by
  have hw : 1 ≤ w - 1 := by omega
  have hlt := pred_ceilDiv_mul_lt hn hw
  have hle := le_ceilDiv_mul n (w - 1) hw
  rw [← Nat.sub_add_cancel (ceilDiv_pos hn hw), Nat.succ_mul] at hle
  rw [trailer, if_neg (by omega), groupSize]
  omega

theorem trailer_le (w n : Nat) (h2 : 2 ≤ w) : trailer w n ≤ w - 1 := by
  obtain rfl | hn := Nat.eq_zero_or_pos n
  · exact Nat.zero_le _
  · exact (trailer_spec h2 hn).2.2

/-- Settles O22: the units of a partition, with `trailer_spec` for the last. -/
theorem groupsAndTrailer : Obligations.GroupsAndTrailer := by
  intro w x h2 _
  have hw : 1 ≤ w - 1 := by omega
  refine ⟨length_partition _ _, fun j hj => ?_, ?_, fun hx => by rw [hx]; rfl, fun hx => ?_⟩
  · rw [Nat.succ_mul]
    exact getElem?_partition (w - 1) x j hw hj
  · have := ceilDiv_mul_lt x.length hw
    omega
  · have hn : x.length ≠ 0 := fun h => hx (List.length_eq_zero_iff.mp h)
    exact ⟨if_neg hn, (trailer_spec h2 (Nat.pos_of_ne_zero hn)).2⟩

/-! ## The WAH scan (rules R114, R118, R125)

The scan is one equation per kind of group, and what it writes is a list of legal words that stand for
the groups. -/

theorem maxCounter_pos_iff {w : Nat} (h2 : 2 ≤ w) : 1 ≤ maxCounter w ↔ 3 ≤ w := by
  have hpow : 1 < 2 ^ (w - 2) ↔ w - 2 ≠ 0 := Nat.one_lt_two_pow_iff
  unfold maxCounter
  omega

theorem fillEligible_iff (w : Nat) (g : Bits) : fillEligible w g = true ↔ ∃ v, g = rep v (w - 1) := by
  simp [fillEligible, groupSize]

theorem runLength_of_head {g : Bits} {gs : List Bits} (h : gs.head? ≠ some g) : runLength g gs = 0 := by
  cases gs with
  | nil => rfl
  | cons g' gs => exact if_neg fun heq => h (congrArg some heq)

/-- A run that is taken whole is as long as it was made (rule R114). -/
theorem runLength_replicate (g : Bits) (r : Nat) {rest : List Bits} (h : rest.head? ≠ some g) :
    runLength g (List.replicate r g ++ rest) = r := by
  induction r with
  | zero => exact runLength_of_head h
  | succ r ih => rw [List.replicate_succ, List.cons_append, runLength, if_pos rfl, ih]

theorem runLength_cons_self (g : Bits) (gs : List Bits) :
    runLength g (g :: gs) = runLength g gs + 1 := if_pos rfl

/-- What is behind a run does not continue it (rule R114). -/
theorem head?_drop_runLength (g : Bits) (gs : List Bits) :
    (gs.drop (runLength g gs)).head? ≠ some g := by
  induction gs with
  | nil => simp
  | cons g' gs ih =>
    rw [runLength]
    split
    · exact ih
    · next hne => simpa using hne

theorem eq_replicate_append_drop (g : Bits) (gs : List Bits) :
    gs = List.replicate (runLength g gs) g ++ gs.drop (runLength g gs) := by
  rw [← take_runLength, List.take_append_drop]

/-! ### The fill words of a run -/

/-- The words of a run of `r` groups (rule R125): full fill words, and one for the remainder. -/
def fillRun (w : Nat) (v : Bool) (r : Nat) : List WahWord :=
  List.replicate ((r - 1) / maxCounter w) (.fill w v (maxCounter w)) ++
    [.fill w v (r - (r - 1) / maxCounter w * maxCounter w)]

section
variable {w : Nat} (v : Bool) {r : Nat}

theorem fillRun_of_le (hM : 1 ≤ maxCounter w) (h : r ≤ maxCounter w) :
    fillRun w v r = [.fill w v r] := by
  simp [fillRun, Nat.div_eq_of_lt (show r - 1 < maxCounter w by omega)]

theorem fillRun_of_lt (hM : 1 ≤ maxCounter w) (h : maxCounter w < r) :
    fillRun w v r = .fill w v (maxCounter w) :: fillRun w v (r - maxCounter w) := by
  have hdiv : (r - 1) / maxCounter w = (r - maxCounter w - 1) / maxCounter w + 1 := by
    rw [← Nat.add_div_right _ hM]
    congr 1
    omega
  have hrem (q : Nat) : r - (q + 1) * maxCounter w = r - maxCounter w - q * maxCounter w := by
    rw [Nat.succ_mul]
    omega
  rw [fillRun, hdiv, hrem, List.replicate_succ, List.cons_append, fillRun]

/-- The loop of rule R125 writes them. -/
theorem fillWords_eq_fillRun (hM : 1 ≤ maxCounter w) {fuel : Nat} (hfuel : r ≤ fuel) :
    fillWords w v fuel r = (fillRun w v r).flatMap WahWord.bits := by
  induction fuel generalizing r with
  | zero => simp [fillWords, fillRun_of_le v hM (show r ≤ maxCounter w by omega)]
  | succ fuel ih =>
    rw [fillWords]
    split
    · next hlt => rw [ih (by omega), fillRun_of_lt v hM hlt, List.flatMap_cons]
    · next hle => simp [fillRun_of_le v hM (Nat.le_of_not_lt hle)]

theorem length_fillRun (hM : 1 ≤ maxCounter w) (hr : 1 ≤ r) :
    (fillRun w v r).length = ceilDiv r (maxCounter w) := by
  simp [fillRun, ceilDiv_eq_pred_div_succ hr hM]

theorem fillRun_legal (hM : 1 ≤ maxCounter w) (hr : 1 ≤ r) : ∀ u ∈ fillRun w v r, wahLegal w u := by
  have legal {n : Nat} (hn : 1 ≤ n) (hle : n ≤ maxCounter w) : wahLegal w (.fill w v n) := by
    have : 0 < 2 ^ (w - 2) := Nat.two_pow_pos _
    unfold maxCounter at hle
    exact ⟨rfl, hn, by omega⟩
  intro u hu
  obtain hu | hu := List.mem_append.mp hu
  · rw [List.eq_of_mem_replicate hu]
    exact legal hM le_rfl
  · rw [List.mem_singleton.mp hu]
    have hdiv := Nat.div_add_mod' (r - 1) (maxCounter w)
    have hmod := Nat.mod_lt (r - 1) hM
    exact legal (by omega) (by omega)

theorem groups_fillRun : ((fillRun w v r).map wahGroups).sum = r := by
  have := Nat.div_mul_le_self (r - 1) (maxCounter w)
  simp [fillRun, wahGroups]
  omega

theorem emits_fillRun : (fillRun w v r).flatMap wahEmits = rep v (r * (w - 1)) := by
  have hle := Nat.div_mul_le_self (r - 1) (maxCounter w)
  rw [fillRun, List.flatMap_append, List.flatMap_singleton, List.flatMap_def, List.map_replicate]
  simp only [wahEmits]
  rw [flatten_replicate_rep, ← rep_add, ← Nat.mul_assoc, ← Nat.add_mul]
  congr 2
  omega

end

/-! ### The equations of the scan -/

section
variable {w : Nat}

/-- Group `g` before the groups `rest` is not the first of a run that becomes fill words (rules R118,
R119). -/
def StandsAlone (w : Nat) (g : Bits) (rest : List Bits) : Prop :=
  w = 2 ∨ (g ≠ rep false (w - 1) ∧ g ≠ rep true (w - 1)) ∨ rest.head? ≠ some g

/-- A group that stands alone becomes a literal word. -/
theorem wahScan_literal {g : Bits} {rest : List Bits} (h : StandsAlone w g rest) (fuel : Nat) :
    wahScan w (fuel + 1) (g :: rest) = (WahWord.literal g).bits ++ wahScan w fuel rest := by
  have hno : ¬ (2 ≤ (if fillEligible w g then runLength g (g :: rest) else 0) ∧ 1 ≤ maxCounter w) := by
    rintro ⟨hr, hM⟩
    split at hr
    · next helig =>
      obtain ⟨v, hv⟩ := (fillEligible_iff w g).mp helig
      obtain rfl | ⟨hfalse, htrue⟩ | hhead := h
      · exact absurd hM (by decide)
      · cases v
        · exact hfalse hv
        · exact htrue hv
      · rw [runLength_cons_self, runLength_of_head hhead] at hr
        omega
    · omega
  simp only [wahScan, hno, if_false]

/-- A run of two or more fill-eligible groups, taken whole, becomes fill words. -/
theorem wahScan_run (h3 : 3 ≤ w) (v : Bool) {r : Nat} (hr : 2 ≤ r) {rest : List Bits}
    (h : rest.head? ≠ some (rep v (w - 1))) (fuel : Nat) :
    wahScan w (fuel + 1) (List.replicate r (rep v (w - 1)) ++ rest) =
      (fillRun w v r).flatMap WahWord.bits ++ wahScan w fuel rest := by
  have hM := (maxCounter_pos_iff (by omega)).mpr h3
  have helig := (fillEligible_iff w _).mpr ⟨v, rfl⟩
  have hlen := runLength_replicate (rep v (w - 1)) r h
  have hdrop : (List.replicate r (rep v (w - 1)) ++ rest).drop r = rest :=
    List.drop_left' List.length_replicate
  have hhead : (rep v (w - 1)).headD false = v := by
    obtain ⟨k, hk⟩ := Nat.exists_eq_add_of_le' (show 1 ≤ w - 1 by omega)
    rw [hk]
    rfl
  obtain ⟨r, rfl⟩ := Nat.exists_eq_add_of_le' (show 1 ≤ r by omega)
  rw [List.replicate_succ, List.cons_append] at hlen hdrop ⊢
  simp only [wahScan, helig, if_true, hlen, hr, hM, and_self, hdrop, hhead,
    fillWords_eq_fillRun v hM le_rfl]

/-- What a scan meets first: the end, a group that stands alone, or a run. -/
theorem groups_cases (w : Nat) (h2 : 2 ≤ w) (g : Bits) (gs : List Bits) :
    StandsAlone w g gs ∨ ∃ v r rest, 3 ≤ w ∧ 2 ≤ r ∧ rest.head? ≠ some (rep v (w - 1)) ∧
      g :: gs = List.replicate r (rep v (w - 1)) ++ rest := by
  by_cases h : StandsAlone w g gs
  · exact .inl h
  unfold StandsAlone at h
  push Not at h
  obtain ⟨hw, helig, hhead⟩ := h
  obtain ⟨v, rfl⟩ : ∃ v, g = rep v (w - 1) := by
    by_cases hf : g = rep false (w - 1)
    · exact ⟨false, hf⟩
    · exact ⟨true, helig hf⟩
  obtain ⟨gs, rfl⟩ := List.head?_eq_some_iff.mp hhead
  refine .inr ⟨v, _, _, by omega, ?_, head?_drop_runLength _ _, eq_replicate_append_drop _ _⟩
  rw [runLength_cons_self, runLength_cons_self]
  omega

/-- One pass a group is enough: the scan does not depend on a larger bound. -/
theorem wahScan_fuel (h2 : 2 ≤ w) (gs : List Bits) {fuel : Nat} (h : gs.length ≤ fuel) :
    wahScan w fuel gs = wahScan w gs.length gs := by
  induction hn : gs.length using Nat.strong_induction_on generalizing gs fuel with
  | _ n ih =>
    subst hn
    cases gs with
    | nil => cases fuel <;> rfl
    | cons g gs =>
      obtain ⟨fuel, rfl⟩ := Nat.exists_eq_add_of_le' (show 1 ≤ fuel from le_trans (by simp) h)
      rw [List.length_cons] at h ih ⊢
      obtain halone | ⟨v, r, rest, h3, hr, hhead, heq⟩ := groups_cases w h2 g gs
      · rw [wahScan_literal halone, wahScan_literal halone, ih gs.length (by omega) gs (by omega) rfl]
      · have hlen := congrArg List.length heq
        rw [List.length_cons, List.length_append, List.length_replicate] at hlen
        rw [heq, wahScan_run h3 v hr hhead, wahScan_run h3 v hr hhead,
          ih rest.length (by omega) rest (by omega) rfl,
          ← ih rest.length (by omega) rest (fuel := gs.length) (by omega) rfl]

/-- The equation of a run at the bound the encoder gives. -/
theorem wahScan_run_length (h3 : 3 ≤ w) (v : Bool) {r : Nat} (hr : 2 ≤ r) {rest : List Bits}
    (h : rest.head? ≠ some (rep v (w - 1))) :
    wahScan w (r + rest.length) (List.replicate r (rep v (w - 1)) ++ rest) =
      (fillRun w v r).flatMap WahWord.bits ++ wahScan w rest.length rest := by
  obtain ⟨r', rfl⟩ := Nat.exists_eq_add_of_le' (show 1 ≤ r by omega)
  rw [Nat.add_right_comm, wahScan_run h3 v hr h, wahScan_fuel (by omega) rest (by omega)]

end

theorem wahEnc_eq (x : Bits) (w : Nat) : wahEnc x w =
    (wahScan w (partition (w - 1) x).length (partition (w - 1) x), trailer w x.length) := rfl

/-- The fill words of a run, written out with the quantities of rule R110. -/
theorem bits_fillRun (w : Nat) (v : Bool) (r : Nat) : (fillRun w v r).flatMap WahWord.bits =
    (List.replicate ((r - 1) / (2 ^ (w - 2) - 1))
      ([true, v] ++ bitsN (w - 2) (2 ^ (w - 2) - 1))).flatten ++
    ([true, v] ++ bitsN (w - 2) (r - (r - 1) / (2 ^ (w - 2) - 1) * (2 ^ (w - 2) - 1))) := by
  rw [fillRun, List.flatMap_append, List.flatMap_singleton, List.flatMap_def, List.map_replicate]
  rfl

/-- Settles O38: the equations of the scan. -/
theorem wahEncoderScan : Obligations.WahEncoderScan := by
  intro w h2 _
  refine ⟨fun x => wahEnc_eq x w, ?_, fun v r rest h3 hr hhead => ?_, fun g rest halone => ?_, rfl⟩
  · have hnil : partition (w - 1) [] = [] :=
      List.length_eq_zero_iff.mp ((length_partition _ _).trans (ceilDiv_zero _ (by omega)))
    rw [wahEnc_eq, hnil]
    rfl
  · rw [wahScan_run_length h3 v hr hhead, bits_fillRun]
  · exact wahScan_literal halone rest.length

/-- Settles O45: at `W = 3` a full fill word counts one group, and so does the remainder. -/
theorem wahWordSizeThree : Obligations.WahWordSizeThree := by
  intro v r rest hr hhead
  have hfull : fillRun 3 v r = List.replicate r (.fill 3 v 1) := by
    have hM : maxCounter 3 = 1 := rfl
    obtain ⟨r, rfl⟩ := Nat.exists_eq_add_of_le' (show 1 ≤ r by omega)
    rw [fillRun, hM, Nat.div_one, Nat.mul_one, Nat.add_sub_cancel, Nat.add_sub_cancel_left,
      List.replicate_succ']
  have hrun := wahScan_run_length (w := 3) le_rfl v hr hhead
  rw [hfull, List.flatMap_def, List.map_replicate] at hrun
  exact hrun

/-! ### What the encoder writes, as words -/

/-- The scan turns the groups `gs` into the words `ws`, which stand for them. -/
structure ScansTo (w : Nat) (gs : List Bits) (ws : List WahWord) : Prop where
  scan : wahScan w gs.length gs = ws.flatMap WahWord.bits
  legal : ∀ u ∈ ws, wahLegal w u
  groups : (ws.map wahGroups).sum = gs.length
  emits : ws.flatMap wahEmits = gs.flatten
  length_le : ws.length ≤ gs.length

namespace ScansTo
variable {w : Nat} {gs : List Bits} {ws : List WahWord}

theorem nil (w : Nat) : ScansTo w [] [] := ⟨rfl, by simp, rfl, rfl, le_rfl⟩

theorem literal (h : ScansTo w gs ws) {g : Bits} (halone : StandsAlone w g gs)
    (hg : g.length + 1 = w) : ScansTo w (g :: gs) (.literal g :: ws) where
  scan := by rw [List.length_cons, wahScan_literal halone, h.scan, List.flatMap_cons]
  legal := List.forall_mem_cons.mpr ⟨hg, h.legal⟩
  groups := by rw [List.map_cons, List.sum_cons, h.groups, List.length_cons, wahGroups, Nat.add_comm]
  emits := by rw [List.flatMap_cons, h.emits, List.flatten_cons, wahEmits]
  length_le := Nat.succ_le_succ h.length_le

theorem run (h : ScansTo w gs ws) (h3 : 3 ≤ w) (v : Bool) {r : Nat} (hr : 2 ≤ r)
    (hhead : gs.head? ≠ some (rep v (w - 1))) :
    ScansTo w (List.replicate r (rep v (w - 1)) ++ gs) (fillRun w v r ++ ws) := by
  have hM : 1 ≤ maxCounter w := (maxCounter_pos_iff (by omega)).mpr h3
  have hlen : (List.replicate r (rep v (w - 1)) ++ gs).length = r + gs.length := by simp
  constructor
  case scan => rw [hlen, wahScan_run_length h3 v hr hhead, h.scan, List.flatMap_append]
  case legal =>
    exact List.forall_mem_append.mpr ⟨fillRun_legal v hM (by omega), h.legal⟩
  case groups => rw [hlen, List.map_append, List.sum_append, groups_fillRun, h.groups]
  case emits =>
    rw [List.flatMap_append, emits_fillRun, h.emits, List.flatten_append, flatten_replicate_rep]
  case length_le =>
    have hle : (fillRun w v r).length ≤ r := by
      rw [length_fillRun v hM (by omega), ceilDiv_le_iff _ _ _ hM]
      exact Nat.le_mul_of_pos_right r hM
    rw [hlen, List.length_append]
    exact Nat.add_le_add hle h.length_le

end ScansTo

/-- Groups of the right size scan to legal words (rule R125). -/
theorem exists_scansTo {w : Nat} (h2 : 2 ≤ w) (gs : List Bits) (hgs : ∀ g ∈ gs, g.length = w - 1) :
    ∃ ws, ScansTo w gs ws := by
  induction hn : gs.length using Nat.strong_induction_on generalizing gs with
  | _ n ih =>
    subst hn
    cases gs with
    | nil => exact ⟨[], .nil w⟩
    | cons g gs =>
      obtain halone | ⟨v, r, rest, h3, hr, hhead, heq⟩ := groups_cases w h2 g gs
      · obtain ⟨hg, hgs⟩ := List.forall_mem_cons.mp hgs
        obtain ⟨ws, hws⟩ := ih gs.length (Nat.lt_succ_self _) gs hgs rfl
        exact ⟨_, hws.literal halone (by omega)⟩
      · rw [heq] at hgs ih ⊢
        have hlt : rest.length < (List.replicate r (rep v (w - 1)) ++ rest).length := by
          rw [List.length_append, List.length_replicate]
          omega
        obtain ⟨ws, hws⟩ := ih rest.length hlt rest (List.forall_mem_append.mp hgs).2 rfl
        exact ⟨_, hws.run h3 v hr hhead⟩

/-- The words of `wah_enc(x, W)`: those of the groups of `x`. -/
theorem exists_words_wahEnc {w : Nat} (h2 : 2 ≤ w) (x : Bits) :
    ∃ ws, ScansTo w (partition (w - 1) x) ws ∧
      wahEnc x w = (ws.flatMap WahWord.bits, trailer w x.length) := by
  obtain ⟨ws, hws⟩ := exists_scansTo h2 (partition (w - 1) x) fun g => length_of_mem_partition
  exact ⟨ws, hws, by rw [wahEnc_eq, hws.scan]⟩

/-- Settles O43: a word is `W` bits and stands for a group at least; a single run is `fillRun`. -/
theorem wahSize : Obligations.WahSize := by
  intro w h2 h64
  refine ⟨fun x => ?_, fun v r x h3 hr hx => ?_⟩
  · obtain ⟨ws, hws, henc⟩ := exists_words_wahEnc h2 x
    rw [henc, length_words hws.legal h2 h64, Nat.mul_comm]
    exact ⟨Nat.mul_le_mul_left w (hws.length_le.trans_eq (length_partition _ _)), Nat.dvd_mul_right _ _⟩
  · have hM : 1 ≤ maxCounter w := (maxCounter_pos_iff h2).mpr h3
    have hscan := (ScansTo.nil w).run h3 v hr (by simp)
    rw [List.append_nil, List.append_nil] at hscan
    rw [wahEnc_eq, hx, hscan.scan, length_words hscan.legal h2 h64, length_fillRun v hM (by omega),
      Nat.mul_comm]
    rfl

/-! ## The WAH round trip (rule R123), and `W = 2` (rule R119) -/

/-- The words of an input, under its trailer, answer the input. -/
theorem ScansTo.answer {w : Nat} (h2 : 2 ≤ w) {x : Bits} {ws : List WahWord}
    (h : ScansTo w (partition (w - 1) x) ws) :
    WordsAnswer w (trailer w x.length) ws x.length x := by
  have hgroups := h.groups
  have hempty := groups_words_eq_zero_iff h.legal
  rw [length_partition] at hgroups
  rw [hgroups] at hempty
  by_cases hx : x = []
  · subst hx
    exact .inl ⟨hempty.mp (ceilDiv_zero _ (by omega)), rfl, rfl, rfl⟩
  · have hn : 1 ≤ x.length := List.length_pos_iff.mpr hx
    have hk : 1 ≤ ceilDiv x.length (w - 1) := ceilDiv_pos hn (by omega)
    obtain ⟨hsum, hpos, hle⟩ := trailer_spec h2 hn
    refine .inr ⟨hempty.not.mp (by omega), hpos, hle, by rw [hgroups, hsum], ?_⟩
    rw [h.emits, flatten_partition (w - 1) x (by omega), List.take_left]

theorem wahDec_wahEnc (x : Bits) {w : Nat} (h2 : 2 ≤ w) (h64 : w ≤ 64) :
    wahDec (wahEnc x w).1 (wahEnc x w).2 w = .ok (x.length, x) := by
  obtain ⟨ws, hws, henc⟩ := exists_words_wahEnc h2 x
  rw [henc]
  exact wahDec_of_answer h2 h64 hws.legal (hws.answer h2)

/-- Units of one bit are the bits. -/
theorem partition_one (x : Bits) : partition 1 x = x.map fun b => [b] := by
  have hunits : unitsOf 1 x.length x = x.map fun b => [b] := by
    induction x with
    | nil => rfl
    | cons b x ih => rw [List.length_cons, unitsOf, List.map_cons, ← ih]; rfl
  rw [partition, ceilDiv, Nat.add_sub_cancel, Nat.div_one, hunits]

/-- At `W = 2` every group stands alone (rule R119). -/
theorem wahScan_two (gs : List Bits) : wahScan 2 gs.length gs = gs.flatMap (false :: ·) := by
  induction gs with
  | nil => rfl
  | cons g gs ih =>
    rw [List.length_cons, wahScan_literal (.inl rfl), ih]
    rfl

theorem wahEnc_two (x : Bits) :
    wahEnc x 2 = (x.flatMap (fun b => [false, b]), if x = [] then 0 else 1) := by
  have htrailer : trailer 2 x.length = if x = [] then 0 else 1 := by
    by_cases hx : x = []
    · rw [hx]
      rfl
    · obtain ⟨-, hpos, hle⟩ := trailer_spec (w := 2) le_rfl (List.length_pos_iff.mpr hx)
      rw [if_neg hx]
      exact Nat.le_antisymm hle hpos
  rw [wahEnc_eq, wahScan_two, htrailer, partition_one, List.flatMap_map]

/-- Settles O44: the encoder at `W = 2`, the round trip, and the literal words before a bad word. -/
theorem wahWordSizeTwo : Obligations.WahWordSizeTwo := by
  refine ⟨wahEnc_two, fun x hx => ?_, fun x rest v f => ?_⟩
  · have := wahDec_wahEnc x (w := 2) le_rfl (by decide)
    rwa [wahEnc_two, if_neg hx] at this
  · have hbits : (x.map fun b => WahWord.literal [b]).flatMap WahWord.bits =
        x.flatMap fun b => [false, b] := List.flatMap_map ..
    have hlegal : ∀ u ∈ x.map fun b => WahWord.literal [b], wahLegal 2 u := by
      intro u hu
      obtain ⟨b, -, rfl⟩ := List.mem_map.mp hu
      rfl
    have hbad : StartsBadWord 2 ([true, v] ++ rest) := ⟨by simp, .inr ⟨v, rest, rfl⟩⟩
    have := wahDec_of_badWord le_rfl (by decide) hlegal f hbad
    rwa [length_words hlegal le_rfl (by decide), hbits, List.length_map, Nat.mul_comm,
      ← List.append_assoc] at this

end Sys2Proof.Machine

/-! ## The WAH commands (rules R115, R117)

One equation per ending, as for the builder. -/

namespace Sys2Proof.Machine

theorem wordSizeInDomain_iff (w : Operand) :
    wordSizeInDomain w = true ↔ 2 ≤ w.toNat ∧ w.toNat ≤ 64 := by
  rw [wordSizeInDomain, Bool.and_eq_true, decide_eq_true_eq, decide_eq_true_eq]
  rfl

/-- The ending of a command that commits a buffer and answers a result. -/
theorem exists_onlyBuf_res {s : State} {x : Result} {d : BufId} {q : Bits} {res : Nat}
    (h : x = succeeds res (s.setBuf d q)) (hres : res < 2 ^ 64) :
    ∃ t, x = .next t ∧ Succeeded res s t ∧ OnlyBuf d q s t :=
  ⟨_, h, succeeded_succeed_of_commit (by simp) ⟨by simp, by simp⟩ hres,
    onlyBuf_setBuf_succeed s d q res⟩

/-! ### `WAH_COMPRESS` -/

section
variable {s : State} {d b : BufId} {w : Operand}

theorem exec_wahCompress_same (h : d = b) :
    exec (.wahCompress d b w) s = raises .invalidParameter 0 s := if_pos h

theorem exec_wahCompress_badSize (h : d ≠ b) (hw : ¬ (2 ≤ w.toNat ∧ w.toNat ≤ 64)) :
    exec (.wahCompress d b w) s = raises .invalidParameter 0 s := by
  simp [exec, execWahCompress, h, mt (wordSizeInDomain_iff w).mp hw]

theorem exec_wahCompress_over (h : d ≠ b) (hw : 2 ≤ w.toNat ∧ w.toNat ≤ 64)
    (hcap : s.cap < (wahEnc (s.buf b) w.toNat).1.length) :
    exec (.wahCompress d b w) s = raises .capacityExceeded 0 s := by
  simp [exec, execWahCompress, h, (wordSizeInDomain_iff w).mpr hw, opVal, hcap]

theorem exec_wahCompress_fits (h : d ≠ b) (hw : 2 ≤ w.toNat ∧ w.toNat ≤ 64)
    (hcap : (wahEnc (s.buf b) w.toNat).1.length ≤ s.cap) :
    exec (.wahCompress d b w) s =
      succeeds (wahEnc (s.buf b) w.toNat).2 (s.setBuf d (wahEnc (s.buf b) w.toNat).1) := by
  simp [exec, execWahCompress, h, (wordSizeInDomain_iff w).mpr hw, opVal, hcap.not_gt]

/-- A trailer fits the result field (rule R113). -/
theorem wahEnc_trailer_lt {w : Nat} (hw : 2 ≤ w ∧ w ≤ 64) (x : Bits) : (wahEnc x w).2 < 2 ^ 64 := by
  have hle : (wahEnc x w).2 ≤ w - 1 := trailer_le w x.length hw.1
  omega

/-- A compression that answered status 0 has passed every test. -/
theorem wahCompress_of_status_zero {t : State} {r : Response}
    (h : exec (.wahCompress d b w) s = .next t) (hr : t.rsp = some r) (hok : r.status = 0) :
    (2 ≤ w.toNat ∧ w.toNat ≤ 64) ∧
      t = (s.setBuf d (wahEnc (s.buf b) w.toNat).1).succeed (wahEnc (s.buf b) w.toNat).2 := by
  have no_raise {e : ErrorKind} {off : Nat}
      (hx : exec (.wahCompress d b w) s = raises e off s) : False := by
    cases h.symm.trans hx
    exact raise_status_ne_zero s e off hr hok
  have hne : d ≠ b := fun hd => no_raise (exec_wahCompress_same hd)
  have hw := by_contra fun hn => no_raise (exec_wahCompress_badSize hne hn)
  have hcap := Nat.le_of_not_lt fun hlt => no_raise (exec_wahCompress_over hne hw hlt)
  cases h.symm.trans (exec_wahCompress_fits hne hw hcap)
  exact ⟨hw, rfl⟩

end

/-- Settles O39: the four endings in the order of the tests. -/
theorem wahCompressResult : Obligations.WahCompressResult := by
  intro s d b w
  refine ⟨by simpa using hasWord_of_encode (i := .wahCompress d b w) rfl, fun hd => ?_,
    fun hne hw => ?_, fun hne h2 h64 hcap => ?_, fun hne h2 h64 hcap => ?_⟩
  · exact exists_failed (exec_wahCompress_same hd) (by decide)
  · exact exists_failed (exec_wahCompress_badSize hne (by omega)) (by decide)
  · exact exists_failed (exec_wahCompress_over hne ⟨h2, h64⟩ hcap) (by decide)
  · exact exists_onlyBuf_res (exec_wahCompress_fits hne ⟨h2, h64⟩ hcap) (wahEnc_trailer_lt ⟨h2, h64⟩ _)

/-! ### `WAH_DECOMPRESS` -/

/-! What a decompress command delivers (rules R117, R147), said of the expanded answer of its decode. -/

section
variable {d : BufId} {r : DecodeResult Reading} {s : State}

theorem deliver_of_malformed {off : Nat} (h : r.expand = .malformed off) :
    deliver d r s = s.raise .malformedStream off := by
  cases r with
  | ok g => cases h
  | malformed off' =>
    cases h
    rfl

theorem deliver_of_over {n : Nat} {y : Bits} (h : r.expand = .ok (n, y)) (hcap : s.cap < n) :
    deliver d r s = s.raise .capacityExceeded 0 := by
  cases r with
  | ok g =>
    cases h
    exact if_pos hcap
  | malformed off => cases h

theorem deliver_of_fits {n : Nat} {y : Bits} (h : r.expand = .ok (n, y)) (hcap : n ≤ s.cap) :
    deliver d r s = (s.setBuf d y).succeed 0 := by
  cases r with
  | ok g =>
    cases h
    exact if_neg hcap.not_gt
  | malformed off => cases h

end

section
variable {s : State} {d b : BufId} {w f : Operand}

theorem exec_wahDecompress_same (h : d = b) :
    exec (.wahDecompress d b w f) s = raises .invalidParameter 0 s := if_pos h

theorem exec_wahDecompress_badSize (h : d ≠ b) (hw : ¬ (2 ≤ w.toNat ∧ w.toNat ≤ 64)) :
    exec (.wahDecompress d b w f) s = raises .invalidParameter 0 s := by
  simp [exec, execWahDecompress, h, mt (wordSizeInDomain_iff w).mp hw]

theorem exec_wahDecompress_malformed (h : d ≠ b) (hw : 2 ≤ w.toNat ∧ w.toNat ≤ 64) {off : Nat}
    (hdec : wahDec (s.buf b) f.toNat w.toNat = .malformed off) :
    exec (.wahDecompress d b w f) s = raises .malformedStream off s :=
  (execWahDecompress_of_domain f s h hw.1 hw.2).trans (congrArg _ (deliver_of_malformed hdec))

theorem exec_wahDecompress_over (h : d ≠ b) (hw : 2 ≤ w.toNat ∧ w.toNat ≤ 64) {n : Nat} {y : Bits}
    (hdec : wahDec (s.buf b) f.toNat w.toNat = .ok (n, y)) (hcap : s.cap < n) :
    exec (.wahDecompress d b w f) s = raises .capacityExceeded 0 s :=
  (execWahDecompress_of_domain f s h hw.1 hw.2).trans (congrArg _ (deliver_of_over hdec hcap))

theorem exec_wahDecompress_fits (h : d ≠ b) (hw : 2 ≤ w.toNat ∧ w.toNat ≤ 64) {n : Nat} {y : Bits}
    (hdec : wahDec (s.buf b) f.toNat w.toNat = .ok (n, y)) (hcap : n ≤ s.cap) :
    exec (.wahDecompress d b w f) s = succeeds 0 (s.setBuf d y) :=
  (execWahDecompress_of_domain f s h hw.1 hw.2).trans (congrArg _ (deliver_of_fits hdec hcap))

end

/-- A decode fails inside the stream or at its end (rule R116). -/
theorem wahDec_malformed_le {w f off : Nat} {c : Bits} (h2 : 2 ≤ w) (h64 : w ≤ 64)
    (h : wahDec c f w = .malformed off) : off ≤ c.length := by
  obtain ⟨ws, -, ⟨-, n, y, -, hd⟩ | ⟨-, -, hd⟩ | ⟨rest, rfl, -, hd⟩⟩ := wahDec_cases h2 h64 c f
  · cases h.symm.trans hd
  · cases h.symm.trans hd
    exact le_rfl
  · cases h.symm.trans hd
    simp

/-- Enough groups are emitted for the decoded length (rule R116). -/
theorem WordsAnswer.length_eq {w f n : Nat} {y : Bits} {ws : List WahWord}
    (h : WordsAnswer w f ws n y) (hws : ∀ u ∈ ws, wahLegal w u) : y.length = n := by
  obtain ⟨-, -, rfl, rfl⟩ | ⟨hne, -, hf, rfl, rfl⟩ := h
  · rfl
  · obtain ⟨k, hk⟩ := Nat.exists_eq_succ_of_ne_zero ((groups_words_eq_zero_iff hws).not.mpr hne)
    apply List.length_take_of_le
    rw [length_emits_words hws, hk, Nat.succ_sub_one, Nat.succ_mul]
    omega

theorem wahDec_ok_length {w f n : Nat} {c y : Bits} (h2 : 2 ≤ w) (h64 : w ≤ 64)
    (h : wahDec c f w = .ok (n, y)) : y.length = n := by
  obtain ⟨ws, hws, -, ha⟩ := (wahDec_ok_iff h2 h64 c f n y).mp h
  exact ha.length_eq hws

/-- Settles O41: the five endings in the order of the tests; under the invariant the offset fits. -/
theorem wahDecompressResult : Obligations.WahDecompressResult := by
  intro s d b w f
  refine ⟨by simpa using hasWord_of_encode (i := .wahDecompress d b w f) rfl, fun hd => ?_,
    fun hne hw => ?_, fun off inv hne h2 h64 hdec => ?_, fun n y hne h2 h64 hdec hcap => ?_,
    fun n y hne h2 h64 hdec hcap => ?_⟩
  · exact exists_failed (exec_wahDecompress_same hd) (by decide)
  · exact exists_failed (exec_wahDecompress_badSize hne (by omega)) (by decide)
  · exact exists_failed (exec_wahDecompress_malformed hne ⟨h2, h64⟩ hdec)
      ((wahDec_malformed_le h2 h64 hdec).trans_lt (inv.length_buf_lt b))
  · exact exists_failed (exec_wahDecompress_over hne ⟨h2, h64⟩ hdec hcap) (by decide)
  · obtain ⟨t, ht, hok, honly⟩ := exists_onlyBuf (exec_wahDecompress_fits hne ⟨h2, h64⟩ hdec hcap)
    exact ⟨t, ht, hok, honly, wahDec_ok_length h2 h64 hdec⟩

/-- Settles O42: `wahDec_wahEnc`, and for the commands that the decoded length, the source's, fits. -/
theorem wahRoundTrip : Obligations.WahRoundTrip := by
  refine ⟨fun x w => wahDec_wahEnc x, fun s t r d b e w inv hne ht hr hok => ?_⟩
  obtain ⟨hw, hend⟩ := wahCompress_of_status_zero ht hr hok
  have hbuf : t.buf d = (wahEnc (s.buf b) w.toNat).1 := by simp [hend]
  have hcap : t.cap = s.cap := by simp [hend]
  have hres : r.res.toNat = (wahEnc (s.buf b) w.toNat).2 := by
    cases hr.symm.trans (congrArg State.rsp hend)
    exact Nat.mod_eq_of_lt (wahEnc_trailer_lt hw _)
  have hdec := wahDec_wahEnc (s.buf b) hw.1 hw.2
  rw [← hres, ← hbuf] at hdec
  obtain ⟨u, hu, hok', hbuf', -⟩ :=
    exists_onlyBuf (exec_wahDecompress_fits hne hw hdec (hcap ▸ inv.bufs_fit b))
  exact ⟨u, hu, hok', hbuf'⟩

end Sys2Proof.Machine

/-! ## BBC: the class of a byte (rule R143) -/

namespace Sys2Proof.Machine

/-- The byte of a class that has only one. -/
def ByteClass.soleByte : ByteClass → Option Byte
  | .zero => some 0x00
  | .one => some 0xFF
  | .singleSet i => some (setByte i)
  | .singleClear i => some (clearByte i)
  | .literal => none

theorem eq_of_findIndex {f : BitVec 3 → Byte} {y : Byte} {is : List (BitVec 3)} {i : BitVec 3}
    (h : findIndex f y is = some i) : y = f i := by
  induction is with
  | nil => cases h
  | cons j is ih =>
    rw [findIndex] at h
    split at h
    · next heq =>
      cases h
      exact heq.symm
    · exact ih h

theorem eq_of_soleByte_classOf {y z : Byte} (h : (classOf y).soleByte = some z) : y = z := by
  unfold classOf at h
  split_ifs at h with hzero hone
  · cases h
    exact hzero
  · cases h
    exact hone
  · split at h
    · next i hi =>
      cases h
      exact eq_of_findIndex hi
    · split at h
      · next i hi =>
        cases h
        exact eq_of_findIndex hi
      · cases h

/-- A class that has only one byte is the class of that byte, and of no other. -/
theorem classOf_eq_iff {c : ByteClass} {z : Byte} (hc : c.soleByte = some z) (y : Byte) :
    classOf y = c ↔ y = z := by
  constructor
  · rintro rfl
    exact eq_of_soleByte_classOf hc
  · rintro rfl
    cases c with
    | zero => cases hc; decide
    | one => cases hc; decide
    | singleSet i => cases hc; revert i; decide
    | singleClear i => cases hc; revert i; decide
    | literal => cases hc

theorem classOf_eq_literal_iff (y : Byte) :
    classOf y = .literal ↔ ∀ c z, ByteClass.soleByte c = some z → y ≠ z := by
  constructor
  · rintro h c z hc rfl
    rw [(classOf_eq_iff hc y).mpr rfl] at h
    rw [h] at hc
    cases hc
  · intro h
    cases hc : (classOf y).soleByte with
    | some z => exact absurd (eq_of_soleByte_classOf hc) (h _ z hc)
    | none =>
      cases hy : classOf y with
      | literal => rfl
      | _ =>
        rw [hy] at hc
        cases hc

theorem eq_setByte_iff (y : Byte) (i : BitVec 3) : y = setByte i ↔ y.toNat = 2 ^ (7 - i.toNat) := by
  have hval : (setByte i).toNat = 2 ^ (7 - i.toNat) := by
    revert i
    decide
  rw [← hval, BitVec.toNat_inj]

theorem eq_clearByte_iff (y : Byte) (i : BitVec 3) :
    y = clearByte i ↔ y.toNat = 255 - 2 ^ (7 - i.toNat) := by
  have hval : (clearByte i).toNat = 255 - 2 ^ (7 - i.toNat) := by
    revert i
    decide
  rw [← hval, BitVec.toNat_inj]

/-- Settles O46: four classes have one byte each, the fifth has the bytes that are none of these. -/
theorem byteClasses : Obligations.ByteClasses := by
  intro y
  refine ⟨classOf_eq_iff rfl y, classOf_eq_iff rfl y,
    fun i => (classOf_eq_iff rfl y).trans (eq_setByte_iff y i),
    fun i => (classOf_eq_iff rfl y).trans (eq_clearByte_iff y i), ?_⟩
  simp only [classOf_eq_literal_iff, ne_eq, ← eq_setByte_iff, ← eq_clearByte_iff]
  constructor
  · intro h
    exact ⟨h .zero _ rfl, h .one _ rfl, fun i => ⟨h (.singleSet i) _ rfl, h (.singleClear i) _ rfl⟩⟩
  · rintro ⟨hzero, hone, hbit⟩ c z hc
    cases c with
    | zero => cases hc; exact hzero
    | one => cases hc; exact hone
    | singleSet i => cases hc; exact (hbit i).1
    | singleClear i => cases hc; exact (hbit i).2
    | literal => cases hc

/-! ## BBC: the records of a stream (rules R72 to R76)

As for WAH: a stream is a list of legal records and, after them, nothing or the first bad record. -/

theorem one_le_length_bbcBytes {u : BbcRecord} (h : bbcLegal u) : 1 ≤ (bbcBytes u).length := by
  have pos {n : BitVec 8} (hn : n ≠ 0) : 1 ≤ n.toNat :=
    Nat.pos_of_ne_zero fun h0 => hn (BitVec.eq_of_toNat_eq h0)
  cases u with
  | zeroRun n => simpa [bbcBytes] using pos h
  | oneRun n => simpa [bbcBytes] using pos h
  | singleSet i => exact le_rfl
  | singleClear i => exact le_rfl
  | literal b => exact le_rfl
  | reserved101 | reserved110 | reserved111 => exact h.elim

theorem length_bits_bbcRecord_le (u : BbcRecord) : u.bits.length ≤ 11 := by
  cases u <;> simp [BbcRecord.bits]

theorem bits_bbcRecord_ne_nil (u : BbcRecord) : u.bits ≠ [] := by
  cases u <;> simp [BbcRecord.bits]

/-- No legal record is at the head of these bits: they are cut short in the tag or the field, or have a
reserved tag or run length 0 (rule R76). -/
def NoLegalHead (rest : Bits) : Prop :=
  rest.length < 3 ∨
  (3 ≤ rest.length ∧ 5 ≤ val (rest.take 3)) ∨
  (rest.length < 11 ∧ 3 ≤ rest.length ∧ val (rest.take 3) ∈ [0, 1, 4]) ∨
  (rest.length < 6 ∧ 3 ≤ rest.length ∧ val (rest.take 3) ∈ [2, 3]) ∨
  (11 ≤ rest.length ∧ val (rest.take 3) ∈ [0, 1] ∧ val (slice rest 3 11) = 0)

/-- What is left of a stream starts with a bad record. -/
def StartsBadRecord (rest : Bits) : Prop := rest ≠ [] ∧ NoLegalHead rest

/-- What is left of a stream starts with a record the decoder accepts. -/
def StartsLegalRecord (rest : Bits) : Prop :=
  ∃ u tail, bbcLegal u ∧ rest = u.bits ++ tail

/-- The next bits of a sequence that has enough of them are the digits of a number. -/
theorem exists_bitsN_append {n : Nat} {q : Bits} (h : n ≤ q.length) :
    ∃ (x : BitVec n) (tail : Bits), q = bitsN n x.toNat ++ tail := by
  have hlen := List.length_take_of_le h
  have hlt := val_lt (q.take n)
  rw [hlen] at hlt
  have hdigits := bitsN_val (q.take n)
  rw [hlen] at hdigits
  refine ⟨BitVec.ofNat n (val (q.take n)), q.drop n, ?_⟩
  rw [BitVec.toNat_ofNat, Nat.mod_eq_of_lt hlt, hdigits, List.take_append_drop]

section
variable {k : Nat}

theorem val_take_tag (hk : k < 8) (q : Bits) : val ((bitsN 3 k ++ q).take 3) = k := by
  rw [List.take_left' (length_bitsN 3 k), val_bitsN]
  exact Nat.mod_eq_of_lt hk

theorem slice_field (k n : Nat) (q : Bits) : slice (bitsN 3 k ++ q) 3 (3 + n) = q.take n := by
  rw [slice, List.drop_left' (length_bitsN 3 k), Nat.add_sub_cancel_left]

/-- The bad records, by tag and by what is behind it (rules R73, R76). -/
theorem startsBadRecord_tag_iff (hk : k < 8) (q : Bits) : StartsBadRecord (bitsN 3 k ++ q) ↔
    5 ≤ k ∨ (q.length < 8 ∧ (k ≤ 1 ∨ k = 4)) ∨ (q.length < 3 ∧ (k = 2 ∨ k = 3)) ∨
      (8 ≤ q.length ∧ k ≤ 1 ∧ val (q.take 8) = 0) := by
  have hlen : (bitsN 3 k ++ q).length = q.length + 3 := by
    rw [List.length_append, length_bitsN, Nat.add_comm]
  have hne : bitsN 3 k ++ q ≠ [] := List.ne_nil_of_length_pos (by omega)
  simp only [StartsBadRecord, NoLegalHead, hne, ne_eq, not_false_eq_true, true_and, hlen,
    val_take_tag hk, slice_field k 8 q, List.mem_cons, List.not_mem_nil, or_false]
  omega

/-- The field of 8 bits of a run or literal record is there, or the record is cut short. -/
theorem long_field_cases (hk : k ≤ 1 ∨ k = 4) (q : Bits) : StartsBadRecord (bitsN 3 k ++ q) ∨
    ∃ (x : Byte) (tail : Bits), q = bitsN 8 x.toNat ++ tail := by
  by_cases h : 8 ≤ q.length
  · exact .inr (exists_bitsN_append h)
  · exact .inl ((startsBadRecord_tag_iff (by omega) q).mpr (.inr (.inl ⟨Nat.lt_of_not_le h, hk⟩)))

/-- A run record is cut short, of length 0, or legal. -/
theorem run_cases (hk : k ≤ 1) {u : Byte → BbcRecord}
    (hbits : ∀ x, (u x).bits = bitsN 3 k ++ bitsN 8 x.toNat) (hlegal : ∀ x, x ≠ 0 → bbcLegal (u x))
    (q : Bits) : StartsBadRecord (bitsN 3 k ++ q) ∨ StartsLegalRecord (bitsN 3 k ++ q) := by
  obtain hbad | ⟨x, tail, rfl⟩ := long_field_cases (.inl hk) q
  · exact .inl hbad
  by_cases hx : x = 0
  · subst hx
    have hval : val ((bitsN 8 0 ++ tail).take 8) = 0 := by
      rw [List.take_left' (length_bitsN 8 0), val_bitsN, Nat.zero_mod]
    exact .inl ((startsBadRecord_tag_iff (by omega) _).mpr
      (.inr (.inr (.inr ⟨by simp, hk, hval⟩))))
  · exact .inr ⟨u x, tail, hlegal x hx, by rw [hbits, List.append_assoc]⟩

/-- A single-bit record is cut short or legal. -/
theorem single_cases (hk : k = 2 ∨ k = 3) {u : BitVec 3 → BbcRecord}
    (hbits : ∀ x, (u x).bits = bitsN 3 k ++ bitsN 3 x.toNat) (hlegal : ∀ x, bbcLegal (u x))
    (q : Bits) : StartsBadRecord (bitsN 3 k ++ q) ∨ StartsLegalRecord (bitsN 3 k ++ q) := by
  by_cases h : 3 ≤ q.length
  · obtain ⟨x, tail, rfl⟩ := exists_bitsN_append h
    exact .inr ⟨u x, tail, hlegal x, by rw [hbits, List.append_assoc]⟩
  · exact .inl ((startsBadRecord_tag_iff (by omega) q).mpr
      (.inr (.inr (.inl ⟨Nat.lt_of_not_le h, hk⟩))))

end

/-- How what is left of a stream can start (rule R76). -/
theorem bbcStream_cases (c : Bits) : c = [] ∨ StartsBadRecord c ∨ StartsLegalRecord c := by
  by_cases hnil : c = []
  · exact .inl hnil
  by_cases hshort : c.length < 3
  · exact .inr (.inl ⟨hnil, .inl hshort⟩)
  obtain ⟨tag, q, rfl⟩ := exists_bitsN_append (Nat.le_of_not_lt hshort)
  refine .inr ?_
  obtain ⟨k, hk⟩ := tag
  change k < 8 at hk
  change StartsBadRecord (bitsN 3 k ++ q) ∨ StartsLegalRecord (bitsN 3 k ++ q)
  match k with
  | 0 => exact run_cases (by decide) (u := .zeroRun) (fun _ => rfl) (fun _ => id) q
  | 1 => exact run_cases (by decide) (u := .oneRun) (fun _ => rfl) (fun _ => id) q
  | 2 => exact single_cases (by decide) (u := .singleSet) (fun _ => rfl) (fun _ => trivial) q
  | 3 => exact single_cases (by decide) (u := .singleClear) (fun _ => rfl) (fun _ => trivial) q
  | 4 =>
    obtain hbad | ⟨x, tail, rfl⟩ := long_field_cases (k := 4) (.inr rfl) q
    · exact .inl hbad
    · exact .inr ⟨.literal x, tail, trivial, by rw [BbcRecord.bits, List.append_assoc]⟩
  | k + 5 => exact .inl ((startsBadRecord_tag_iff hk q).mpr (.inl (Nat.le_add_left 5 k)))

/-- Every stream is legal records, then nothing or a bad record. -/
theorem exists_records (c : Bits) : ∃ (rs : List BbcRecord) (rest : Bits), (∀ u ∈ rs, bbcLegal u) ∧
    c = rs.flatMap BbcRecord.bits ++ rest ∧ (rest = [] ∨ StartsBadRecord rest) := by
  induction hn : c.length using Nat.strong_induction_on generalizing c with
  | _ n ih =>
    obtain rfl | hbad | ⟨u, rest, hu, rfl⟩ := bbcStream_cases c
    · exact ⟨[], [], by simp, rfl, .inl rfl⟩
    · exact ⟨[], c, by simp, rfl, .inr hbad⟩
    · have hpos := List.length_pos_iff.mpr (bits_bbcRecord_ne_nil u)
      rw [List.length_append] at hn
      obtain ⟨rs, rest', hrs, rfl, hend⟩ := ih rest.length (by omega) rest rfl
      exact ⟨u :: rs, rest', List.forall_mem_cons.mpr ⟨hu, hrs⟩, by simp, hend⟩

/-! ## The BBC decoder, said of records (rule R145) -/

theorem emitsBytes_nil (sc : Scan) : EmitsBytes 0 [] sc sc := by simp [EmitsBytes]

theorem EmitsBytes.append {m m' : Nat} {ys ys' : List Byte} {sc sc' sc'' : Scan}
    (h : EmitsBytes m ys sc sc') (h' : EmitsBytes m' ys' sc' sc'') :
    EmitsBytes (m + m') (ys ++ ys') sc sc'' := by
  obtain ⟨hpos, hunits, hbits⟩ := h
  obtain ⟨hpos', hunits', hbits'⟩ := h'
  refine ⟨?_, ?_, ?_⟩
  · rw [hpos', hpos, Nat.add_assoc]
  · rw [hunits', hunits, List.length_append, Nat.add_assoc]
  · rw [hbits', hbits, List.flatMap_append, List.append_assoc]

theorem bbcRecordEffect_of_not_legal {u : BbcRecord} (h : ¬ bbcLegal u) (sc : Scan) :
    bbcRecordEffect u sc = none := by
  have run {n : BitVec 8} (hn : ¬ n ≠ 0) (y : Byte) : runEffect y n sc = none :=
    if_pos (congrArg BitVec.toNat (not_not.mp hn))
  cases u with
  | zeroRun n => exact run h _
  | oneRun n => exact run h _
  | singleSet _ | singleClear _ | literal _ => exact absurd trivial h
  | reserved101 | reserved110 | reserved111 => rfl

/-- A bad record is rejected where it is read, or is read and has no effect (rule R76). -/
theorem read_of_startsBadRecord {rest : Bits} (h : StartsBadRecord rest) :
    (∃ r, readBbcRecord rest = .reject r) ∨
      ∃ u, readBbcRecord rest = .unit u ∧ ¬ bbcLegal u := by
  obtain ⟨-, hshort | ⟨h3, h5⟩ | ⟨h11, h3, htag⟩ | ⟨h6, h3, htag⟩ | ⟨h11, htag, hzero⟩⟩ := h
  · exact .inl ⟨_, if_pos hshort⟩
  · have hlt := val_lt (rest.take 3)
    rw [List.length_take_of_le h3] at hlt
    obtain htag | htag | htag :
        val (rest.take 3) = 5 ∨ val (rest.take 3) = 6 ∨ val (rest.take 3) = 7 := by omega
    · exact .inr ⟨.reserved101, by simp [readBbcRecord, h3.not_gt, htag], id⟩
    · exact .inr ⟨.reserved110, by simp [readBbcRecord, h3.not_gt, htag], id⟩
    · exact .inr ⟨.reserved111, by simp [readBbcRecord, h3.not_gt, htag], id⟩
  · simp only [List.mem_cons, List.not_mem_nil, or_false] at htag
    obtain htag | htag | htag := htag <;>
      exact .inl ⟨.truncatedField, by simp [readBbcRecord, h3.not_gt, htag, ifFieldFits, h11]⟩
  · simp only [List.mem_cons, List.not_mem_nil, or_false] at htag
    obtain htag | htag := htag <;>
      exact .inl ⟨.truncatedField, by simp [readBbcRecord, h3.not_gt, htag, ifFieldFits, h6]⟩
  · have h3 : ¬ rest.length < 3 := by omega
    have hfield : bbcField 8 rest = 0 := congrArg (BitVec.ofNat 8) hzero
    simp only [List.mem_cons, List.not_mem_nil, or_false] at htag
    obtain htag | htag := htag
    · exact .inr ⟨.zeroRun 0, by simp [readBbcRecord, h3, htag, ifFieldFits, h11.not_gt, hfield],
        fun h => h rfl⟩
    · exact .inr ⟨.oneRun 0, by simp [readBbcRecord, h3, htag, ifFieldFits, h11.not_gt, hfield],
        fun h => h rfl⟩

section
variable {c : Bits} {sc : Scan}

/-- A pass over a legal record. -/
theorem bbcLoop_of_unit {u : BbcRecord} {sc' : Scan} (fuel : Nat) (hpos : sc.pos < c.length)
    (hread : readBbcRecord (c.drop sc.pos) = .unit u) (he : bbcRecordEffect u sc = some sc') :
    bbcLoop c (fuel + 1) sc = bbcLoop c fuel sc' := by
  simp only [bbcLoop, hpos, if_true, hread, he]

/-- The loop ends where the stream does, whatever the bound. -/
theorem bbcLoop_of_end (fuel : Nat) (h : c.drop sc.pos = []) : bbcLoop c fuel sc = .ok sc := by
  cases fuel with
  | zero => rfl
  | succ fuel => exact if_neg (Nat.not_lt.mpr (List.drop_eq_nil_iff.mp h))

/-- The loop fails at the first bit of a bad record. -/
theorem bbcLoop_of_badRecord (fuel : Nat) (h : StartsBadRecord (c.drop sc.pos)) :
    bbcLoop c (fuel + 1) sc = .malformed sc.pos := by
  have hpos := lt_length_of_drop_ne_nil h.1
  obtain ⟨r, hread⟩ | ⟨u, hread, hu⟩ := read_of_startsBadRecord h
  · simp only [bbcLoop, hpos, if_true, hread]
  · simp only [bbcLoop, hpos, if_true, hread, bbcRecordEffect_of_not_legal hu]

/-- The loop reads legal records one by one, and stands behind the last of them with a pass a bit left. -/
theorem bbcLoop_records {rs : List BbcRecord} (hrs : ∀ u ∈ rs, bbcLegal u) {rest : Bits} {fuel : Nat}
    (hdrop : c.drop sc.pos = rs.flatMap BbcRecord.bits ++ rest) (hfuel : c.length ≤ sc.pos + fuel) :
    ∃ fuel' sc', EmitsBytes (rs.flatMap BbcRecord.bits).length (rs.flatMap bbcBytes) sc sc' ∧
      c.drop sc'.pos = rest ∧ c.length ≤ sc'.pos + fuel' ∧
      bbcLoop c fuel sc = bbcLoop c fuel' sc' := by
  induction rs generalizing fuel sc with
  | nil => exact ⟨fuel, sc, emitsBytes_nil sc, hdrop, hfuel, rfl⟩
  | cons u rs ih =>
    obtain ⟨hu, hrs⟩ := List.forall_mem_cons.mp hrs
    have hlen := List.length_pos_iff.mpr (bits_bbcRecord_ne_nil u)
    rw [List.flatMap_cons, List.append_assoc] at hdrop
    have hpos : sc.pos < c.length := lt_length_of_drop_ne_nil (by
      rw [hdrop]
      exact List.append_ne_nil_of_left_ne_nil (bits_bbcRecord_ne_nil u) _)
    obtain ⟨fuel, rfl⟩ := Nat.exists_eq_add_of_le' (show 1 ≤ fuel by omega)
    obtain ⟨sc₁, he, hemits⟩ := bbcRecordEffect_of_legal hu sc
    have hpos₁ : sc₁.pos = sc.pos + u.bits.length := hemits.1
    have hdrop₁ : c.drop sc₁.pos = rs.flatMap BbcRecord.bits ++ rest := by
      rw [hpos₁, ← List.drop_drop, hdrop, List.drop_left]
    obtain ⟨fuel', sc', hemits', hend, hfuel', hloop⟩ := ih hrs hdrop₁ (by omega : _ ≤ sc₁.pos + fuel)
    refine ⟨fuel', sc', ?_, hend, hfuel', ?_⟩
    · rw [List.flatMap_cons, List.flatMap_cons, List.length_append]
      exact hemits.append hemits'
    · rw [bbcLoop_of_unit fuel hpos (by rw [hdrop, readBbcRecord_append]) he, hloop]

end

section
variable {rs : List BbcRecord} (hrs : ∀ u ∈ rs, bbcLegal u)
include hrs

/-- A stream of legal records is read to its end, and its bytes are counted. -/
theorem bbcDec_records (n : Nat) : bbcDec (rs.flatMap BbcRecord.bits) n =
    if (rs.flatMap bbcBytes).length = ceilDiv n 8 then .ok (n, unpack (rs.flatMap bbcBytes) n)
    else .malformed (rs.flatMap BbcRecord.bits).length := by
  obtain ⟨fuel, sc, ⟨-, hunits, hbits⟩, hend, -, hloop⟩ :=
    bbcLoop_records (c := rs.flatMap BbcRecord.bits) (sc := Scan.start) (rest := []) hrs (by simp)
      (by simp : _ ≤ Scan.start.pos + (rs.flatMap BbcRecord.bits).length)
  rw [Scan.start_units, Nat.zero_add] at hunits
  rw [Scan.start_bits, List.nil_append] at hbits
  simp only [bbcDec, bbcRead, hloop, bbcLoop_of_end fuel hend, bbcFinish, hunits]
  split <;> simp [DecodeResult.expand, Reading.bits, hbits, unpack]

theorem bbcDec_of_badRecord {rest : Bits} (n : Nat) (h : StartsBadRecord rest) :
    bbcDec (rs.flatMap BbcRecord.bits ++ rest) n = .malformed (rs.flatMap BbcRecord.bits).length := by
  obtain ⟨fuel, sc, ⟨hpos, -⟩, hend, hfuel, hloop⟩ :=
    bbcLoop_records (c := rs.flatMap BbcRecord.bits ++ rest) (sc := Scan.start) (rest := rest) hrs rfl
      (by simp : _ ≤ Scan.start.pos + (rs.flatMap BbcRecord.bits ++ rest).length)
  have hbad := hend ▸ h
  have hlt := lt_length_of_drop_ne_nil hbad.1
  obtain ⟨fuel, rfl⟩ := Nat.exists_eq_add_of_le' (show 1 ≤ fuel by omega)
  rw [bbcDec, bbcRead, hloop, bbcLoop_of_badRecord fuel hbad, hpos]
  simp [DecodeResult.expand]

end

theorem bbcDec_ok_iff (c : Bits) (n m : Nat) (y : Bits) : bbcDec c n = .ok (m, y) ↔
    ∃ rs : List BbcRecord, (∀ r ∈ rs, bbcLegal r) ∧ c = rs.flatMap BbcRecord.bits ∧
      (rs.flatMap bbcBytes).length = ceilDiv n 8 ∧ m = n ∧ y = unpack (rs.flatMap bbcBytes) n := by
  constructor
  · intro h
    obtain ⟨rs, rest, hrs, rfl, rfl | hbad⟩ := exists_records c
    · rw [List.append_nil, bbcDec_records hrs] at h
      split at h
      · next hlen =>
        cases h
        exact ⟨rs, hrs, List.append_nil _, hlen, rfl, rfl⟩
      · cases h
    · cases h.symm.trans (bbcDec_of_badRecord hrs n hbad)
  · rintro ⟨rs, hrs, rfl, hlen, rfl, rfl⟩
    rw [bbcDec_records hrs, if_pos hlen]

theorem bbcDec_malformed_iff (c : Bits) (n off : Nat) : bbcDec c n = .malformed off ↔
    ∃ (rs : List BbcRecord) (rest : Bits), (∀ r ∈ rs, bbcLegal r) ∧
      c = rs.flatMap BbcRecord.bits ++ rest ∧
      ((rest ≠ [] ∧ off = (rs.flatMap BbcRecord.bits).length ∧ NoLegalHead rest) ∨
       (rest = [] ∧ off = c.length ∧ (rs.flatMap bbcBytes).length ≠ ceilDiv n 8)) := by
  constructor
  · intro h
    obtain ⟨rs, rest, hrs, rfl, rfl | hbad⟩ := exists_records c
    · refine ⟨rs, [], hrs, rfl, .inr ⟨rfl, ?_⟩⟩
      rw [List.append_nil, bbcDec_records hrs] at h
      split at h
      · cases h
      · next hlen =>
        cases h
        exact ⟨by rw [List.append_nil], hlen⟩
    · cases h.symm.trans (bbcDec_of_badRecord hrs n hbad)
      exact ⟨rs, rest, hrs, rfl, .inl ⟨hbad.1, rfl, hbad.2⟩⟩
  · rintro ⟨rs, rest, hrs, rfl, ⟨hne, rfl, hbad⟩ | ⟨rfl, rfl, hlen⟩⟩
    · exact bbcDec_of_badRecord hrs n ⟨hne, hbad⟩
    · rw [List.append_nil, bbcDec_records hrs, if_neg hlen]

/-- Settles O49: `NoLegalHead` lists the bad records of the statement. -/
theorem bbcDecoderAnswers : Obligations.BbcDecoderAnswers := fun n c =>
  ⟨bbcDec_ok_iff c n, bbcDec_malformed_iff c n⟩

end Sys2Proof.Machine

/-! ## The BBC scan (rules R146, R153)

Bytes become legal records that stand for them; the scan is one equation for a run and one for any other
byte. -/

namespace Sys2Proof.Machine

/-- The byte of a run of bit `v` (rule R153). -/
def runByte (v : Bool) : Byte := if v then 0xFF else 0x00

theorem byteRun_of_head {y : Byte} {ys : List Byte} (h : ys.head? ≠ some y) : byteRun y ys = 0 := by
  cases ys with
  | nil => rfl
  | cons z ys => exact if_neg fun heq => h (congrArg some heq)

/-- A run that is taken whole is as long as it was made. -/
theorem byteRun_replicate (y : Byte) (r : Nat) {rest : List Byte} (h : rest.head? ≠ some y) :
    byteRun y (List.replicate r y ++ rest) = r := by
  induction r with
  | zero => exact byteRun_of_head h
  | succ r ih => rw [List.replicate_succ, List.cons_append, byteRun, if_pos rfl, ih]

/-- Bytes from `y` on are a run of `y`, taken whole, and what is behind it. -/
theorem exists_byteRun (y : Byte) (ys : List Byte) :
    ∃ r rest, 1 ≤ r ∧ rest.head? ≠ some y ∧ y :: ys = List.replicate r y ++ rest := by
  induction ys with
  | nil => exact ⟨1, [], le_rfl, by simp, rfl⟩
  | cons z ys ih =>
    by_cases hz : z = y
    · obtain ⟨r, rest, -, hhead, heq⟩ := ih
      exact ⟨r + 1, rest, by omega, hhead, by rw [hz, heq]; rfl⟩
    · exact ⟨1, z :: ys, le_rfl, by simpa using hz, rfl⟩

/-! ### The records of a run -/

/-- The records of a run of `r` bytes (rule R153): full ones, and one for the remainder. -/
def recordsOfRun (v : Bool) (r : Nat) : List BbcRecord :=
  List.replicate ((r - 1) / 255) (runRecord v 255) ++ [runRecord v (r - (r - 1) / 255 * 255)]

/-- A run of at most 255 bytes fits the field of a record (rule R140). -/
theorem toNat_runLength {n : Nat} (hn : n ≤ 255) : (BitVec.ofNat 8 n).toNat = n :=
  Nat.mod_eq_of_lt (by omega)

section
variable (v : Bool) {r : Nat}

theorem bits_runRecord {n : Nat} (hn : n ≤ 255) :
    (runRecord v n).bits = [false, false, v] ++ bitsN 8 n := by
  cases v with
  | false => exact congrArg (bitsN 3 0 ++ bitsN 8 ·) (toNat_runLength hn)
  | true => exact congrArg (bitsN 3 1 ++ bitsN 8 ·) (toNat_runLength hn)

theorem bytes_runRecord {n : Nat} (hn : n ≤ 255) :
    bbcBytes (runRecord v n) = List.replicate n (runByte v) := by
  cases v <;> simp [runRecord, bbcBytes, toNat_runLength hn, runByte]

theorem runRecord_legal {n : Nat} (h1 : 1 ≤ n) (hn : n ≤ 255) : bbcLegal (runRecord v n) := by
  have hne : BitVec.ofNat 8 n ≠ 0 := fun h => by
    have h0 := (toNat_runLength hn).symm.trans (congrArg BitVec.toNat h)
    rw [h0] at h1
    exact absurd h1 (by decide)
  cases v <;> exact hne

theorem recordsOfRun_of_le (h : r ≤ 255) : recordsOfRun v r = [runRecord v r] := by
  have hdiv : (r - 1) / 255 = 0 := by omega
  simp [recordsOfRun, hdiv]

theorem recordsOfRun_of_lt (h : 255 < r) :
    recordsOfRun v r = runRecord v 255 :: recordsOfRun v (r - 255) := by
  have hdiv : (r - 1) / 255 = (r - 255 - 1) / 255 + 1 := by omega
  have hrem : r - (r - 1) / 255 * 255 = r - 255 - (r - 255 - 1) / 255 * 255 := by omega
  rw [recordsOfRun, hrem, hdiv, List.replicate_succ, List.cons_append, recordsOfRun]

theorem runMax_eq : Config.runMax = 255 := rfl

/-- The loop of rule R153 writes them. -/
theorem runRecords_eq {fuel : Nat} (hfuel : r ≤ fuel) :
    runRecords v fuel r = (recordsOfRun v r).flatMap BbcRecord.bits := by
  induction fuel generalizing r with
  | zero => simp [runRecords, recordsOfRun_of_le v (show r ≤ 255 by omega)]
  | succ fuel ih =>
    rw [runRecords, runMax_eq]
    split
    · next hlt => rw [ih (by omega), recordsOfRun_of_lt v hlt, List.flatMap_cons]
    · next hle => simp [recordsOfRun_of_le v (Nat.le_of_not_lt hle)]

theorem recordsOfRun_legal (hr : 1 ≤ r) : ∀ u ∈ recordsOfRun v r, bbcLegal u := by
  refine List.forall_mem_append.mpr ⟨fun u hu => ?_, List.forall_mem_singleton.mpr ?_⟩
  · rw [List.eq_of_mem_replicate hu]
    exact runRecord_legal v (by decide) le_rfl
  · exact runRecord_legal v (by omega) (by omega)

theorem bytes_recordsOfRun : (recordsOfRun v r).flatMap bbcBytes = List.replicate r (runByte v) := by
  rw [recordsOfRun, List.flatMap_append, List.flatMap_singleton, List.flatMap_def, List.map_replicate,
    bytes_runRecord v le_rfl, bytes_runRecord v (by omega), List.flatten_replicate_replicate,
    List.replicate_append_replicate]
  congr 1
  omega

/-- The records of a run, written out. -/
theorem bits_recordsOfRun : (recordsOfRun v r).flatMap BbcRecord.bits =
    (List.replicate ((r - 1) / 255) ([false, false, v] ++ bitsN 8 255)).flatten ++
      ([false, false, v] ++ bitsN 8 (r - (r - 1) / 255 * 255)) := by
  rw [recordsOfRun, List.flatMap_append, List.flatMap_singleton, List.flatMap_def, List.map_replicate,
    bits_runRecord v le_rfl, bits_runRecord v (by omega)]

theorem length_bits_recordsOfRun (hr : 1 ≤ r) :
    ((recordsOfRun v r).flatMap BbcRecord.bits).length = 11 * ceilDiv r 255 := by
  rw [bits_recordsOfRun, ceilDiv_eq_pred_div_succ hr (by decide)]
  simp [-bitsN_succ]
  omega

end

/-! ### The equations of the scan -/

/-- The record of the byte `y`, of class `c`, that is in no run (rule R153). -/
def ownRecord (y : Byte) (c : ByteClass) : BbcRecord :=
  match c with
  | .singleSet i => .singleSet i
  | .singleClear i => .singleClear i
  | _ => .literal y

theorem ownRecord_legal (y : Byte) (c : ByteClass) : bbcLegal (ownRecord y c) := by
  cases c <;> trivial

theorem bytes_ownRecord (y : Byte) : bbcBytes (ownRecord y (classOf y)) = [y] := by
  cases hy : classOf y with
  | singleSet i =>
    rw [(classOf_eq_iff rfl y).mp hy]
    rfl
  | singleClear i =>
    rw [(classOf_eq_iff rfl y).mp hy]
    rfl
  | _ => rfl

/-- A byte that is no run byte becomes its own record. -/
theorem bbcScan_own {y : Byte} {c : ByteClass} (hy : classOf y = c) (hzero : c ≠ .zero)
    (hone : c ≠ .one) (fuel : Nat) (rest : List Byte) :
    bbcScan (fuel + 1) (y :: rest) = (ownRecord y c).bits ++ bbcScan fuel rest := by
  rw [bbcScan, hy]
  cases c with
  | zero => exact absurd rfl hzero
  | one => exact absurd rfl hone
  | singleSet i => rfl
  | singleClear i => rfl
  | literal => rfl

/-- A run taken whole becomes run records, also a run of one byte (rule R146). -/
theorem bbcScan_run (v : Bool) {r : Nat} (hr : 1 ≤ r) {rest : List Byte}
    (h : rest.head? ≠ some (runByte v)) (fuel : Nat) :
    bbcScan (fuel + 1) (List.replicate r (runByte v) ++ rest) =
      (recordsOfRun v r).flatMap BbcRecord.bits ++ bbcScan fuel rest := by
  have hrun := byteRun_replicate (runByte v) r h
  have hdrop : (List.replicate r (runByte v) ++ rest).drop r = rest :=
    List.drop_left' List.length_replicate
  obtain ⟨r, rfl⟩ := Nat.exists_eq_add_of_le' hr
  rw [List.replicate_succ, List.cons_append] at hrun hdrop ⊢
  have hclass : classOf (runByte v) = if v then .one else .zero := by cases v <;> decide
  rw [bbcScan, hclass, ← runRecords_eq v le_rfl]
  cases v <;> simp only [hrun, hdrop, if_true, Bool.false_eq_true, if_false]

/-- What the scan meets first: a byte of its own record, or a run. -/
theorem bytes_cases (y : Byte) (ys : List Byte) : (classOf y ≠ .zero ∧ classOf y ≠ .one) ∨
    ∃ v r rest, 1 ≤ r ∧ rest.head? ≠ some (runByte v) ∧
      y :: ys = List.replicate r (runByte v) ++ rest := by
  by_cases hzero : classOf y = .zero
  · rw [(classOf_eq_iff rfl y).mp hzero]
    exact .inr ⟨false, exists_byteRun _ ys⟩
  by_cases hone : classOf y = .one
  · rw [(classOf_eq_iff rfl y).mp hone]
    exact .inr ⟨true, exists_byteRun _ ys⟩
  exact .inl ⟨hzero, hone⟩

/-- Bytes scan to legal records that stand for them, and one pass a byte is enough (rule R153). -/
theorem exists_records_bbcScan (ys : List Byte) : ∃ rs : List BbcRecord, (∀ u ∈ rs, bbcLegal u) ∧
    rs.flatMap bbcBytes = ys ∧
    ∀ fuel, ys.length ≤ fuel → bbcScan fuel ys = rs.flatMap BbcRecord.bits := by
  induction hn : ys.length using Nat.strong_induction_on generalizing ys with
  | _ n ih =>
    subst hn
    cases ys with
    | nil => exact ⟨[], by simp, rfl, fun fuel _ => by cases fuel <;> rfl⟩
    | cons y ys =>
      obtain ⟨hzero, hone⟩ | ⟨v, r, rest, hr, hhead, heq⟩ := bytes_cases y ys
      · obtain ⟨rs, hlegal, hbytes, hscan⟩ := ih ys.length (Nat.lt_succ_self _) ys rfl
        refine ⟨ownRecord y (classOf y) :: rs, List.forall_mem_cons.mpr ⟨ownRecord_legal _ _, hlegal⟩,
          ?_, fun fuel hfuel => ?_⟩
        · rw [List.flatMap_cons, bytes_ownRecord, hbytes, List.singleton_append]
        · rw [List.length_cons] at hfuel
          obtain ⟨fuel, rfl⟩ := Nat.exists_eq_add_of_le' (show 1 ≤ fuel by omega)
          rw [bbcScan_own rfl hzero hone, hscan fuel (by omega), List.flatMap_cons]
      · have hlen : (List.replicate r (runByte v) ++ rest).length = r + rest.length := by simp
        rw [heq] at ih ⊢
        rw [hlen] at ih ⊢
        obtain ⟨rs, hlegal, hbytes, hscan⟩ := ih rest.length (by omega) rest rfl
        refine ⟨recordsOfRun v r ++ rs,
          List.forall_mem_append.mpr ⟨recordsOfRun_legal v hr, hlegal⟩, ?_, fun fuel hfuel => ?_⟩
        · rw [List.flatMap_append, bytes_recordsOfRun, hbytes]
        · obtain ⟨fuel, rfl⟩ := Nat.exists_eq_add_of_le' (show 1 ≤ fuel by omega)
          rw [bbcScan_run v hr hhead, hscan fuel (by omega), List.flatMap_append]

/-- The scan does not depend on a bound larger than the encoder's. -/
theorem bbcScan_fuel (ys : List Byte) {fuel : Nat} (h : ys.length ≤ fuel) :
    bbcScan fuel ys = bbcScan ys.length ys := by
  obtain ⟨rs, -, -, hscan⟩ := exists_records_bbcScan ys
  rw [hscan fuel h, hscan _ le_rfl]

/-- The equation of a run at the bound the encoder gives. -/
theorem bbcScan_run_length (v : Bool) {r : Nat} (hr : 1 ≤ r) {rest : List Byte}
    (h : rest.head? ≠ some (runByte v)) :
    bbcScan (r + rest.length) (List.replicate r (runByte v) ++ rest) =
      (recordsOfRun v r).flatMap BbcRecord.bits ++ bbcScan rest.length rest := by
  obtain ⟨r', rfl⟩ := Nat.exists_eq_add_of_le' hr
  rw [Nat.add_right_comm, bbcScan_run v hr h, bbcScan_fuel rest (by omega)]

theorem bbcEnc_eq (x : Bits) : bbcEnc x = (bbcScan (pack x).length (pack x), x.length) := rfl

/-- Settles O47: the equations of the scan. -/
theorem bbcEncoderScan : Obligations.BbcEncoderScan := by
  refine ⟨bbcEnc_eq, rfl, fun v r rest hr hhead => ?_, fun i rest => ?_, fun i rest => ?_,
    fun y rest hy => ?_, rfl⟩
  · exact (bbcScan_run_length v hr hhead).trans (congrArg (· ++ _) (bits_recordsOfRun v))
  · exact bbcScan_own ((classOf_eq_iff (c := .singleSet i) rfl _).mpr rfl) (by simp) (by simp) _ rest
  · exact bbcScan_own ((classOf_eq_iff (c := .singleClear i) rfl _).mpr rfl) (by simp) (by simp) _ rest
  · exact bbcScan_own hy (by simp) (by simp) _ rest

/-! ### The size of a stream (rule R149), and the round trip (rule R151) -/

/-- The records of `bbc_enc(x)`: those of the bytes of `x`. -/
theorem exists_records_bbcEnc (x : Bits) : ∃ rs : List BbcRecord, (∀ u ∈ rs, bbcLegal u) ∧
    rs.flatMap bbcBytes = pack x ∧ bbcEnc x = (rs.flatMap BbcRecord.bits, x.length) := by
  obtain ⟨rs, hlegal, hbytes, hscan⟩ := exists_records_bbcScan (pack x)
  exact ⟨rs, hlegal, hbytes, by rw [bbcEnc_eq, hscan _ le_rfl]⟩

/-- A record is 11 bits at most, and stands for a byte at least. -/
theorem length_bits_records_le {rs : List BbcRecord} (h : ∀ u ∈ rs, bbcLegal u) :
    (rs.flatMap BbcRecord.bits).length ≤ 11 * (rs.flatMap bbcBytes).length := by
  induction rs with
  | nil => simp
  | cons u rs ih =>
    obtain ⟨hu, hrs⟩ := List.forall_mem_cons.mp h
    have hbits := length_bits_bbcRecord_le u
    have hbytes := one_le_length_bbcBytes hu
    have hrest := ih hrs
    rw [List.flatMap_cons, List.flatMap_cons, List.length_append, List.length_append]
    omega

/-- Settles O52: the bound record by record, and the records of a single run. -/
theorem bbcSize : Obligations.BbcSize := by
  refine ⟨fun x => ?_, fun v r x hr hx => ?_⟩
  · obtain ⟨rs, hlegal, hbytes, henc⟩ := exists_records_bbcEnc x
    have hle := length_bits_records_le hlegal
    rw [hbytes, length_pack] at hle
    rwa [henc]
  · have hscan : bbcScan r (List.replicate r (runByte v)) =
        (recordsOfRun v r).flatMap BbcRecord.bits := by
      simpa [bbcScan] using bbcScan_run_length v hr (rest := []) (by simp)
    rw [bbcEnc_eq, hx, List.length_replicate]
    exact (congrArg List.length hscan).trans (length_bits_recordsOfRun v hr)

theorem bbcDec_bbcEnc (x : Bits) : bbcDec (bbcEnc x).1 x.length = .ok (x.length, x) := by
  obtain ⟨rs, hlegal, hbytes, henc⟩ := exists_records_bbcEnc x
  rw [henc, bbcDec_records hlegal, hbytes, if_pos (length_pack x), unpack_pack]

/-! ## The BBC commands (rules R144, R147) -/

/-! ### `BBC_COMPRESS` -/

section
variable {s : State} {d b : BufId}

theorem exec_bbcCompress_same (h : d = b) :
    exec (.bbcCompress d b) s = raises .invalidParameter 0 s := if_pos h

theorem exec_bbcCompress_over (h : d ≠ b) (hcap : s.cap < (bbcEnc (s.buf b)).1.length) :
    exec (.bbcCompress d b) s = raises .capacityExceeded 0 s := by
  simp [exec, execBbcCompress, h, hcap]

theorem exec_bbcCompress_fits (h : d ≠ b) (hcap : (bbcEnc (s.buf b)).1.length ≤ s.cap) :
    exec (.bbcCompress d b) s = succeeds (s.buf b).length (s.setBuf d (bbcEnc (s.buf b)).1) := by
  simp only [exec, execBbcCompress, h, if_false, hcap.not_gt]
  rfl

/-- A compression that answered status 0 has passed every test. -/
theorem bbcCompress_of_status_zero {t : State} {r : Response}
    (h : exec (.bbcCompress d b) s = .next t) (hr : t.rsp = some r) (hok : r.status = 0) :
    t = (s.setBuf d (bbcEnc (s.buf b)).1).succeed (s.buf b).length := by
  have no_raise {e : ErrorKind} {off : Nat}
      (hx : exec (.bbcCompress d b) s = raises e off s) : False := by
    cases h.symm.trans hx
    exact raise_status_ne_zero s e off hr hok
  have hne : d ≠ b := fun hd => no_raise (exec_bbcCompress_same hd)
  have hcap := Nat.le_of_not_lt fun hlt => no_raise (exec_bbcCompress_over hne hlt)
  cases h.symm.trans (exec_bbcCompress_fits hne hcap)
  rfl

end

/-- Settles O48: the three endings in the order of the tests; under the invariant the length fits. -/
theorem bbcCompressResult : Obligations.BbcCompressResult := by
  intro s d b inv
  refine ⟨by simpa using hasWord_of_encode (i := .bbcCompress d b) rfl, fun hd => ?_,
    fun hne hcap => ?_, fun hne hcap => ?_⟩
  · exact exists_failed (exec_bbcCompress_same hd) (by decide)
  · exact exists_failed (exec_bbcCompress_over hne hcap) (by decide)
  · exact exists_onlyBuf_res (exec_bbcCompress_fits hne hcap) (inv.length_buf_lt b)

/-! ### `BBC_DECOMPRESS` -/

/-- A decode fails inside the stream or at its end (rule R145). -/
theorem bbcDec_malformed_le {c : Bits} {n off : Nat} (h : bbcDec c n = .malformed off) :
    off ≤ c.length := by
  obtain ⟨rs, rest, -, rfl, ⟨-, rfl, -⟩ | ⟨-, rfl, -⟩⟩ := (bbcDec_malformed_iff c n off).mp h
  · simp
  · exact le_rfl

/-- A decode answers the length it was given, and as many bits (rule R145). -/
theorem bbcDec_ok_length {c y : Bits} {n m : Nat} (h : bbcDec c n = .ok (m, y)) :
    m = n ∧ y.length = n := by
  obtain ⟨rs, -, -, hlen, rfl, rfl⟩ := (bbcDec_ok_iff c n m y).mp h
  refine ⟨rfl, length_unpack _ _ ?_⟩
  rw [hlen, Nat.mul_comm]
  exact le_ceilDiv_mul m 8 (by decide)

section
variable {s : State} {d b : BufId} {n : Operand}

theorem exec_bbcDecompress_same (h : d = b) :
    exec (.bbcDecompress d b n) s = raises .invalidParameter 0 s := if_pos h

theorem exec_bbcDecompress_malformed (h : d ≠ b) {off : Nat}
    (hdec : bbcDec (s.buf b) n.toNat = .malformed off) :
    exec (.bbcDecompress d b n) s = raises .malformedStream off s :=
  (execBbcDecompress_of_ne n s h).trans (congrArg _ (deliver_of_malformed hdec))

theorem exec_bbcDecompress_over (h : d ≠ b) {m : Nat} {y : Bits}
    (hdec : bbcDec (s.buf b) n.toNat = .ok (m, y)) (hcap : s.cap < n.toNat) :
    exec (.bbcDecompress d b n) s = raises .capacityExceeded 0 s := by
  obtain ⟨rfl, -⟩ := bbcDec_ok_length hdec
  exact (execBbcDecompress_of_ne n s h).trans (congrArg _ (deliver_of_over hdec hcap))

theorem exec_bbcDecompress_fits (h : d ≠ b) {m : Nat} {y : Bits}
    (hdec : bbcDec (s.buf b) n.toNat = .ok (m, y)) (hcap : n.toNat ≤ s.cap) :
    exec (.bbcDecompress d b n) s = succeeds 0 (s.setBuf d y) := by
  obtain ⟨rfl, -⟩ := bbcDec_ok_length hdec
  exact (execBbcDecompress_of_ne n s h).trans (congrArg _ (deliver_of_fits hdec hcap))

end

/-- Settles O50: the four endings in the order of the tests; under the invariant the offset fits. -/
theorem bbcDecompressResult : Obligations.BbcDecompressResult := by
  intro s d b n
  refine ⟨by simpa using hasWord_of_encode (i := .bbcDecompress d b n) rfl, fun hd => ?_,
    fun off inv hne hdec => ?_, fun m y hne hdec hcap => ?_, fun m y hne hdec hcap => ?_⟩
  · exact exists_failed (exec_bbcDecompress_same hd) (by decide)
  · exact exists_failed (exec_bbcDecompress_malformed hne hdec)
      ((bbcDec_malformed_le hdec).trans_lt (inv.length_buf_lt b))
  · exact exists_failed (exec_bbcDecompress_over hne hdec hcap) (by decide)
  · obtain ⟨t, ht, hok, honly⟩ := exists_onlyBuf (exec_bbcDecompress_fits hne hdec hcap)
    exact ⟨t, ht, hok, honly, (bbcDec_ok_length hdec).2⟩

/-- Settles O51: `bbcDec_bbcEnc`, and for the commands that the source's length fits the result field
and the capacity. -/
theorem bbcRoundTrip : Obligations.BbcRoundTrip := by
  refine ⟨fun x => ⟨rfl, bbcDec_bbcEnc x⟩, fun s t r d b e inv hne ht hr hok => ?_⟩
  have hend := bbcCompress_of_status_zero ht hr hok
  have hbuf : t.buf d = (bbcEnc (s.buf b)).1 := by simp [hend]
  have hcap : t.cap = s.cap := by simp [hend]
  have hres : r.res.toNat = (s.buf b).length := by
    cases hr.symm.trans (congrArg State.rsp hend)
    exact Nat.mod_eq_of_lt (inv.length_buf_lt b)
  have hdec := bbcDec_bbcEnc (s.buf b)
  rw [← hbuf, ← hres] at hdec
  obtain ⟨u, hu, hok', hbuf', -⟩ := exists_onlyBuf
    (exec_bbcDecompress_fits hne hdec (by rw [hres, hcap]; exact inv.bufs_fit b))
  exact ⟨u, hu, hok', hbuf'⟩

end Sys2Proof.Machine

/-! ## The system commands (rules R170 to R174) -/

namespace Sys2Proof

/-- The row of the opcode table that `op = 15` selects is the one of `CLR_ERRS` (rule R62). -/
theorem eq_clrErrs_of_op15 {w : CmdWord} {i : Instr} (hop : w.extractLsb' 0 4 = 15#4)
    (h : decodeCommand w = .instr i) : i = .clrErrs := by
  simp only [decodeCommand, decodeFields, fieldsOf, hop] at h
  exact ((ifUnusedZero_eq_instr _ _ _ _).mp h).2.symm

/-- The one word of `CLR_ERRS` is its code: all other fields are unused (rule R64). -/
theorem eq_of_encode_clrErrs {w : CmdWord} (h : encode .clrErrs = .command w) : w = 15 :=
  (Encoded.command.inj h).symm.trans (BitVec.eq_of_toNat_eq (toNat_wordOf _))

end Sys2Proof

namespace Sys2Proof.Machine

theorem addrExists_eq (addr : Operand) (s : State) :
    addrExists addr s = decide (addr.toNat < ceilDiv s.cap 8) := rfl

/-! ### `RAW_WR` (rule R170) -/

theorem isByte_eq (a : Operand) : isByte a = decide (a.toNat ≤ 255) := rfl

theorem toNat_byteOfOperand {a : Operand} (h : a.toNat ≤ 255) :
    (byteOfOperand a).toNat = a.toNat :=
  (BitVec.toNat_ofNat a.toNat 8).trans (Nat.mod_eq_of_lt (Nat.lt_succ_of_le h))

section
variable {s : State} {addr byte : Operand}

theorem exec_rawWr_notByte (h : 255 < byte.toNat) :
    exec (.rawWr addr byte) s = raises .invalidParameter 0 s := by
  simp [exec, execRawWr, isByte_eq, h]

theorem exec_rawWr_past (h : byte.toNat ≤ 255) (haddr : ceilDiv s.cap 8 ≤ addr.toNat) :
    exec (.rawWr addr byte) s = raises .outOfRange addr.toNat s := by
  simp [exec, execRawWr, isByte_eq, addrExists_eq, h, haddr, opVal]

theorem exec_rawWr_ok (h : byte.toNat ≤ 255) (haddr : addr.toNat < ceilDiv s.cap 8) :
    exec (.rawWr addr byte) s =
      succeeds 0 (s.setRaw (Memory.write s.raw addr.toNat (byteOfOperand byte))) := by
  simp [exec, execRawWr, isByte_eq, addrExists_eq, h, haddr, opVal]

end

/-- Settles O33: the three endings in the order of the tests; the byte is read back where it was written,
since under the invariant `RAW` is canonical, and every other address reads as before. -/
theorem rawWrResult : Obligations.RawWrResult := by
  intro s addr byte
  refine ⟨by simpa using hasWord_of_encode (i := .rawWr addr byte) rfl, fun h => ?_,
    fun h haddr => ?_, fun inv h haddr => ?_⟩
  · exact exists_failed (exec_rawWr_notByte h) (by decide)
  · exact exists_failed (exec_rawWr_past h haddr) addr.isLt
  · refine ⟨_, exec_rawWr_ok h haddr, succeeded_succeed_of_commit rfl ⟨rfl, rfl⟩ (by decide),
      fun b => by simp, rfl, ?_, fun a ha => ?_⟩
    · have hread := Memory.read_write_same s.raw addr.toNat (byteOfOperand byte) inv.raw_canonical
      exact (congrArg BitVec.toNat hread).trans (toNat_byteOfOperand h)
    · exact Memory.read_write_other s.raw addr.toNat a _ ha

/-! ### `RAW_RD` (rule R171) -/

section
variable {s : State} {addr : Operand}

theorem exec_rawRd_past (haddr : ceilDiv s.cap 8 ≤ addr.toNat) :
    exec (.rawRd addr) s = raises .outOfRange addr.toNat s := by
  simp [exec, execRawRd, addrExists_eq, haddr, opVal]

theorem exec_rawRd_ok (haddr : addr.toNat < ceilDiv s.cap 8) :
    exec (.rawRd addr) s = succeeds (s.rawAt addr.toNat).toNat s := by
  simp [exec, execRawRd, addrExists_eq, haddr, opVal]

end

/-- Settles O34: the address is in range or not, and a byte fits the result. -/
theorem rawRdResult : Obligations.RawRdResult := by
  intro s addr
  refine ⟨by simpa using hasWord_of_encode (i := .rawRd addr) rfl, fun haddr => ?_,
    fun haddr => ?_⟩
  · exact exists_failed (exec_rawRd_past haddr) addr.isLt
  · exact exists_untouched (exec_rawRd_ok haddr) ((s.rawAt _).isLt.trans (by decide))

/-! ### `RD_ERRS` and `CLR_ERRS` (rules R172, R173) -/

/-- With bit 0 zero, the five bits of `ERRS` are an even number (rule R26). -/
theorem State.Inv.errs_bounds {s : State} (h : s.Inv) :
    s.errs.toNat ≤ 30 ∧ s.errs.toNat % 2 = 0 := by
  have heven : s.errs.toNat % 2 = 0 := by
    simpa [BitVec.getLsbD, Nat.testBit_zero] using h.errs_bit0
  have := s.errs.isLt
  omega

/-- Settles O35: `ERRS` fits the result, and the invariant bounds it. -/
theorem rdErrsResult : Obligations.RdErrsResult := fun s =>
  ⟨by simpa using hasWord_of_encode (i := .rdErrs) rfl,
    exists_untouched rfl (s.errs.isLt.trans (by decide)), State.Inv.errs_bounds⟩

/-- Rule R173: a malformed `CLR_ERRS` fails the format check like any other word. -/
theorem runCommand_of_malformed_clrErrs {w : CmdWord} (s : State)
    (hop : w.extractLsb' 0 4 = 15#4) (hw : w ≠ 15) :
    runCommand w s = raises .invalidParameter 0 s := by
  cases hdec : decodeCommand w with
  | instr i =>
    obtain rfl := eq_clrErrs_of_op15 hop hdec
    exact absurd (eq_of_encode_clrErrs ((decodeCommand_eq_instr_iff w _).mp hdec)) hw
  | reject r => exact runCommand_of_reject w r s hdec

/-- Settles O36: the flags are all that is committed, and a malformed word is rejected before that. -/
theorem clrErrsResult : Obligations.ClrErrsResult := by
  refine ⟨fun s => ⟨by simpa using hasWord_of_encode (i := .clrErrs) rfl, ?_⟩,
    fun s w hj hp hop hw => ?_⟩
  · exact ⟨_, rfl, succeeded_succeed_of_commit rfl ⟨rfl, rfl⟩ (by decide), fun b => by simp,
      fun _ => rfl, rfl⟩
  · exact exists_failed
      ((step_of_pending s w hj hp).trans (runCommand_of_malformed_clrErrs s hop hw)) (by decide)

/-! ### The reserved code (rule R174) -/

/-- Settles O37: `op = 7` uses every field, so its word always decodes, and its meaning raises. -/
theorem reservedCodeRaises : Obligations.ReservedCodeRaises := fun _ d b a0 a1 =>
  ⟨by simpa using hasWord_of_encode (i := .reservedOp7 d b a0 a1) rfl,
    exists_failed rfl (by decide)⟩

end Sys2Proof.Machine

/-! ## Errors are precise, and a retry fails the same way (rules R190, R194) -/

namespace Sys2Proof.Machine

/-! ### Precise errors (rule R190) -/

/-- Every raise is a precise failure: an offset past 64 bits is cut to the response's field. -/
theorem exists_failed_raise (s : State) (e : ErrorKind) (off : Nat) :
    ∃ off', Failed e off' s (s.raise e off) := by
  have hcut : s.raise e (off % 2 ^ 64) = s.raise e off := by
    have : BitVec.ofNat 64 (off % 2 ^ 64) = BitVec.ofNat 64 off :=
      BitVec.eq_of_toNat_eq (by simp)
    rw [State.raise, this, State.raise]
  exact ⟨off % 2 ^ 64, hcut ▸ failed_raise s e _ (Nat.mod_lt _ (by decide))⟩

/-- Settles O8: a status other than 0 leaves the raising end, and a raise is a failure. -/
theorem failureIsPrecise : Obligations.FailureIsPrecise := by
  refine ⟨failed_raise, fun s t w r hj hp ht hrsp hr => ?_⟩
  obtain ⟨i, -, he⟩ | ⟨x, -, hx⟩ := step_pending_cases s w hj hp
  · rw [ht] at he
    cases he with
    | raised e off => exact ⟨e, exists_failed_raise s e off⟩
    | succeeded res u _ =>
      cases hrsp
      exact absurd rfl hr
  · cases ht.symm.trans hx
    exact ⟨_, exists_failed_raise s _ _⟩

/-! ### The retry (rule R194) -/

/-- The response in the next state of an outcome. -/
def responseOf : Result → Option Response
  | .next t => t.rsp
  | .fault _ | .refused _ => none

theorem responseOf_eq_some {x : Result} {r : Response} (h : responseOf x = some r) :
    ∃ t, x = .next t ∧ t.rsp = some r := by
  cases x with
  | next t => exact ⟨t, rfl, h⟩
  | fault _ => cases h
  | refused _ => cases h

@[simp] theorem responseOf_raises (s : State) (e : ErrorKind) (off : Nat) :
    responseOf (raises e off s) = some ⟨BitVec.ofNat 3 e.code, 0, BitVec.ofNat 64 off⟩ := rfl

@[simp] theorem responseOf_succeeds (s : State) (res : Nat) :
    responseOf (succeeds res s) = some ⟨0, BitVec.ofNat 64 res, 0⟩ := rfl

/-- What a decompress command answers depends on the decode and on `CAP` only. -/
theorem responseOf_deliver {s s' : State} (hcap : s'.cap = s.cap) (d : BufId)
    (r : DecodeResult Reading) :
    responseOf (.next (deliver d r s')) = responseOf (.next (deliver d r s)) := by
  cases r with
  | malformed off => rfl
  | ok g =>
    simp only [deliver, hcap]
    split_ifs
    · rfl
    · rfl

/-- With no decoder at work, only a command answers a next state. -/
theorem command_of_exec_next {i : Instr} {s t : State} (hj : s.job = none)
    (h : exec i s = .next t) : ∃ w, encode i = .command w := by
  obtain hcmd | ⟨u, rfl⟩ | ⟨u, rfl⟩ := i.command_or_unit
  · exact hcmd
  · simp [exec_wahWord, onScan, hj] at h
  · simp [exec_bbcRecord, onScan, hj] at h

@[simp] theorem addrExists_raise (s : State) (e : ErrorKind) (off : Nat) (a : Operand) :
    addrExists a (s.raise e off) = addrExists a s := rfl

@[simp] theorem rawAt_raise (s : State) (e : ErrorKind) (off a : Nat) :
    (s.raise e off).rawAt a = s.rawAt a := rfl

/-- After an error every command but `RD_ERRS` answers as it would have without it: what it tests and
what it answers come from buffers, `RAW` and `CAP`, which a raise leaves alone. -/
theorem responseOf_exec_raise (s : State) (e : ErrorKind) (off : Nat) {i : Instr}
    (hcmd : ∃ w, encode i = .command w) (hi : i ≠ .rdErrs) :
    responseOf (exec i (s.raise e off)) = responseOf (exec i s) := by
  have hdeliver := responseOf_deliver (s.raise_cap e off)
  cases i with
  | bsClear d => rfl
  | bsLen b => simp [exec, execBsLen]
  | bsGet b n =>
    simp only [exec, execBsGet, State.raise_buf]
    cases (s.buf b)[opVal n]? with
    | none => rfl
    | some bit => rfl
  | bsAppend d bit => simp [exec, execBsAppend, apply_ite responseOf]
  | bsSlice d b start stop => simp [exec, execBsSlice, apply_ite responseOf]
  | bsFromBytes d n =>
    simp only [exec, execBsFromBytes, apply_ite responseOf]
    rfl
  | bsToBytes b => simp [exec, execBsToBytes]
  | reservedOp7 d b a0 a1 => rfl
  | wahCompress d b w => simp [exec, execWahCompress, apply_ite responseOf]
  | wahDecompress d b w f => simp [exec, execWahDecompress, apply_ite responseOf, hdeliver]
  | bbcCompress d b => simp [exec, execBbcCompress, apply_ite responseOf]
  | bbcDecompress d b n => simp [exec, execBbcDecompress, apply_ite responseOf, hdeliver]
  | rawWr addr byte => simp [exec, execRawWr, apply_ite responseOf]
  | rawRd addr => simp [exec, execRawRd, apply_ite responseOf]
  | rdErrs => exact absurd rfl hi
  | clrErrs => rfl
  | _ =>
    obtain ⟨w, hw⟩ := hcmd
    cases hw

/-- Settles O11: the failed command's state is a raise, after which the command answers as before. -/
theorem retryFailsTheSame : Obligations.RetryFailsTheSame := by
  intro i s t r hj h hrsp hr
  have hcmd := command_of_exec_next hj h
  have hi : i ≠ .rdErrs := by
    rintro rfl
    cases h
    cases hrsp
    exact hr rfl
  have he := exec_ends i s hcmd
  rw [h] at he
  cases he with
  | raised e off =>
    refine responseOf_eq_some ?_
    calc responseOf (exec i (s.raise e off))
        = responseOf (exec i s) := responseOf_exec_raise s e off hcmd hi
      _ = responseOf (.next (s.raise e off)) := congrArg responseOf h
      _ = some r := hrsp
  | succeeded res u _ =>
    cases hrsp
    exact absurd rfl hr

end Sys2Proof.Machine
